-- ==== Sys2Proof/Word.lean ====
section
/-! DEFINITION. The word types of the Keccak-f[1600] sponge engine (spec/00_scope.md R5). Their operators are those of
`BitVec`: bit 0 is the least significant bit; `^^^`, `&&&`, `~~~` are the lane operators of R6. Rotation stands in
Machine/Operands.lean. -/

namespace Sys2Proof

/-- A byte (R5). -/
abbrev Byte := BitVec 8

/-- A lane of the 1600-bit state: an unsigned 64-bit value (R5, R10). -/
abbrev Lane := BitVec 64

/-- A 16-bit word: a command (R45) or a response (R50). -/
abbrev Word := BitVec 16

end Sys2Proof
end

