-- ==== Sys2Proof/Config.lean ====
section
/-! DEFINITION. Parameters of the engine: the constants the source fixes (spec/00_scope.md R3) and the parameters it
leaves open (R4). The open ones are one record, `Params`, that State carries unchanged, so a statement about every
state is a statement about every parameter value, as R4 asks. No value of this engine is free (93_implementation_defined.md,
end of Part 1), so there is no opaque constant here. -/

namespace Sys2Proof

namespace Config

/-- `B_BITS` (R3). -/
abbrev stateBits : Nat := 1600
/-- `NLANES` (R3). -/
abbrev nLanes : Nat := 25
/-- `W` (R3). -/
abbrev laneBits : Nat := 64
/-- `NROUNDS` (R3). -/
abbrev nRounds : Nat := 24
/-- `STATE_BYTES` (R3). -/
abbrev stateBytes : Nat := 200
/-- `NPRESETS` (R3). -/
abbrev nPresets : Nat := 4
/-- `RMAX`, the size of the physical absorb buffer in bytes (R3, R13). -/
abbrev rMax : Nat := 144

end Config

/-- `PAD_RULE` (R4, R71; 90_conflicts.md C1). -/
inductive PadRule where
  /-- `LONE_80`, the default: the source's prose. -/
  | lone80
  /-- `PAD10STAR1`: the rule that reproduces the source's one digest literal. -/
  | pad10star1
deriving DecidableEq, Repr

/-- `ROUNDS_PER_CYCLE`: the eight divisors of 24 that R4 lists. -/
inductive RoundsPerCycle where
  | r1 | r2 | r3 | r4 | r6 | r8 | r12 | r24
deriving DecidableEq, Repr

/-- The parameters of R4 that are no input pin. (`MODE_RESET` is the value on the `cfg_mode` pins, R43, R100: an argument of
hardware reset.) -/
structure Params where
  padRule : PadRule
  roundsPerCycle : RoundsPerCycle
  /-- `RSP_DEPTH`, `>= 1` (R22). -/
  rspDepth : Nat
deriving DecidableEq, Repr

/-- The defaults of R4: `LONE_80`, 1, 1. -/
def Params.default : Params := ⟨.lone80, .r1, 1⟩

end Sys2Proof
end

