-- ==== Sys2Proof/Syntax.lean ====
section
/-! DEFINITION. Syntax: the four presets (R15, R80), the six commands (spec/30_encoding.md R47, opcode_table.json), the
responses (R50), the error causes (R85), and the assembler lines with the pseudo-instructions (R53, R54). -/

namespace Sys2Proof

/-- The four presets, the values of `MODE` (R15, R80). -/
inductive Preset where
  /-- MODE 0: 224-bit digest. -/
  | p224
  /-- MODE 1: 256-bit digest. -/
  | p256
  /-- MODE 2: 384-bit digest. -/
  | p384
  /-- MODE 3: 512-bit digest. -/
  | p512
deriving DecidableEq, Repr

/-- The commands, one constructor per row of opcode_table.json. Each operand's type holds exactly the values its field
admits (R46), so every term is well formed; the terms that can be ill formed are assembler lines (`Asm`, WellFormed.lean). -/
inductive Instr where
  /-- RESET (R73). -/
  | reset
  /-- INIT, `mode = arg[1:0]` (R81). -/
  | init (mode : Preset)
  /-- ABSORB, `data = arg` (R74). -/
  | absorb (data : Byte)
  /-- FINAL, `size = zext(arg)` (R75). -/
  | final (size : Byte)
  /-- QDSZ (R82). -/
  | qdsz
  /-- QRATE (R83). -/
  | qrate
deriving DecidableEq, Repr

/-- The three error causes (R85). -/
inductive Cause where
  | invalidArgument
  | illegalCommand
  | consumed
deriving DecidableEq, Repr

/-- The response kinds with their payloads (R50). -/
inductive Rsp where
  | ack
  | data (b : Byte)
  | done (size : Byte)
  | val (v : Byte)
  | err (c : Cause)
deriving DecidableEq, Repr

/-- A completion word is an ACK, DONE, VAL or ERR (R51); DATA is the one kind that is not. -/
def Rsp.isCompletion : Rsp → Bool
  | .data _ => false
  | .ack | .done _ | .val _ | .err _ => true

/-- Assembler lines (R53) and pseudo-instructions (R54). Operands are the numbers the text may hold; which of them are legal
is `Asm.wf`. `init` and `hash` take the preset's name (224, 256, 384, 512), as R53 says. -/
inductive Asm where
  | reset
  | init (preset : Nat)
  | absorb (b : Nat)
  | final (n : Nat)
  | qdsz
  | qrate
  /-- `.word w`: any 16-bit word. -/
  | word (w : Nat)
  /-- `UPDATE b0 b1 …`. -/
  | update (bs : List Nat)
  /-- `UPDATE "text"`: the bytes of the ASCII string. -/
  | updateText (text : String)
  /-- `FINALFULL`: FINAL with the digest size of the preset in force. -/
  | finalFull
  /-- `HASH p, b0 …`. -/
  | hash (preset : Nat) (bs : List Nat)
deriving DecidableEq, Repr

end Sys2Proof
end

