-- ==== Sys2Proof/WellFormed.lean ====
section
/-! DEFINITION. Well-formedness. A command (`Instr`) is well formed by its type: each operand's type holds exactly the values
its field admits (R46). What can be ill formed is an assembler line: an operand out of the range R53 and R54 give. -/

namespace Sys2Proof

/-- The preset an assembler name stands for (R53). -/
def Preset.ofName : Nat → Option Preset
  | 224 => some .p224
  | 256 => some .p256
  | 384 => some .p384
  | 512 => some .p512
  | _ => none

/-- A byte operand: `0 <= b <= 255` (R53). -/
def isByteOperand (b : Nat) : Bool := decide (b ≤ 255)

/-- The range checks of R53 and R54 on an assembler line. -/
def Asm.wf : Asm → Bool
  | .reset | .qdsz | .qrate | .finalFull => true
  | .init p => (Preset.ofName p).isSome
  | .absorb b => isByteOperand b
  | .final n => isByteOperand n
  | .word w => decide (w < 2 ^ 16)
  | .update bs => bs.all isByteOperand
  | .updateText t => t.toList.all fun c => decide (c.toNat < 128)
  | .hash p bs => (Preset.ofName p).isSome && bs.all isByteOperand

end Sys2Proof
end

