-- ==== Sys2Proof/Decode.lean ====
section
/-! DEFINITION. Decoding and encoding of command words (spec/30_encoding.md R45 to R49), of response words (R50), the opcode
map as match and mask rows (R47), and the assembler (R53, R54). The decoder is total on all 65536 words and does not read
the machine's state (R48, R49). The word's bit positions are the spec's own choice (92_eei_decisions.md D2, D3). -/

namespace Sys2Proof

/-! ## Fields of a command word (R45) -/

/-- `op = cmd[15:12]`. -/
def cmdOp (w : Word) : BitVec 4 := w.extractLsb' 12 4

/-- `zero = cmd[11:8]`. -/
def cmdZero (w : Word) : BitVec 4 := w.extractLsb' 8 4

/-- `arg = cmd[7:0]`. -/
def cmdArg (w : Word) : Byte := w.extractLsb' 0 8

/-! ## Presets as 2-bit numbers (R15) -/

/-- The number of a preset. -/
def Preset.code : Preset → BitVec 2
  | .p224 => 0
  | .p256 => 1
  | .p384 => 2
  | .p512 => 3

/-- The preset of a 2-bit number: all four values are legal (R25). -/
def Preset.ofCode (b : BitVec 2) : Preset :=
  match b.toNat with
  | 0 => .p224
  | 1 => .p256
  | 2 => .p384
  | _ => .p512

/-- `d`, the digest size of a preset in bytes (R15, R80). -/
def Preset.digestSize : Preset → Nat
  | .p224 => 28
  | .p256 => 32
  | .p384 => 48
  | .p512 => 64

/-! ## The decoder (R47, R48) -/

/-- Why a word is illegal (R48). -/
inductive DecodeError where
  /-- `op` in 0x0, 0x7 .. 0xF. -/
  | unassignedOp
  /-- `zero != 0`. -/
  | zeroFieldNotZero
  /-- RESET, QDSZ or QRATE with `arg != 0`. -/
  | argNotZero
  /-- INIT with `arg[7:2] != 0`. -/
  | initArgHighNotZero
deriving DecidableEq, Repr

/-- A command without operand: `arg` must be zero (R46). -/
def decodeNoOperand (i : Instr) (arg : Byte) : Except DecodeError Instr :=
  if arg = 0 then .ok i else .error .argNotZero

/-- INIT: `mode = arg[1:0]`, `arg[7:2]` must be zero (R46). -/
def decodeInit (arg : Byte) : Except DecodeError Instr :=
  if arg.extractLsb' 2 6 = 0 then .ok (.init (Preset.ofCode (arg.extractLsb' 0 2)))
  else .error .initArgHighNotZero

/-- The decoder: the command a word stands for, or why it stands for none. -/
def decode (w : Word) : Except DecodeError Instr :=
  if cmdZero w ≠ 0 then .error .zeroFieldNotZero
  else match (cmdOp w).toNat with
    | 1 => decodeNoOperand .reset (cmdArg w)
    | 2 => decodeInit (cmdArg w)
    | 3 => .ok (.absorb (cmdArg w))
    | 4 => .ok (.final (cmdArg w))
    | 5 => decodeNoOperand .qdsz (cmdArg w)
    | 6 => decodeNoOperand .qrate (cmdArg w)
    | _ => .error .unassignedOp

/-- A word is legal when it decodes (R48). -/
def isLegal (w : Word) : Bool := (decode w).toBool

/-! ## The encoder (R47) -/

/-- A 16-bit word of an operation code and an operand, `zero` field 0 (R45). -/
def cmdWord (op : BitVec 4) (arg : Byte) : Word := (op.setWidth 16 <<< 12) ||| arg.setWidth 16

/-- The word of a command. -/
def encode : Instr → Word
  | .reset => cmdWord 0x1 0
  | .init m => cmdWord 0x2 (m.code.setWidth 8)
  | .absorb d => cmdWord 0x3 d
  | .final n => cmdWord 0x4 n
  | .qdsz => cmdWord 0x5 0
  | .qrate => cmdWord 0x6 0

/-! ## The opcode map as match and mask rows (R47) -/

/-- One row of the opcode map: a word `w` is the command when `w & mask = match`. -/
structure OpRow where
  mnemonic : String
  pattern : Word
  mask : Word
deriving DecidableEq, Repr

/-- `(w & mask) = match`. -/
def OpRow.covers (row : OpRow) (w : Word) : Bool := w &&& row.mask == row.pattern

/-- The six rows of R47 and opcode_table.json. -/
def opRows : List OpRow :=
  [⟨"RESET", 0x1000, 0xFFFF⟩, ⟨"INIT", 0x2000, 0xFFFC⟩, ⟨"ABSORB", 0x3000, 0xFF00⟩,
   ⟨"FINAL", 0x4000, 0xFF00⟩, ⟨"QDSZ", 0x5000, 0xFFFF⟩, ⟨"QRATE", 0x6000, 0xFFFF⟩]

/-- The mnemonic of a command. -/
def Instr.mnemonic : Instr → String
  | .reset => "RESET"
  | .init _ => "INIT"
  | .absorb _ => "ABSORB"
  | .final _ => "FINAL"
  | .qdsz => "QDSZ"
  | .qrate => "QRATE"

/-- The host's question: the command the decoder reads from the bits of a table row. Every command is one 16-bit word on a
16-bit port, so there is no byte order to lay out (R29, R43). A number that is no 16-bit word is none (log 23). -/
def decodeTableWord (nbits w : Nat) : Option Instr :=
  if nbits ≤ 16 ∧ w < 2 ^ 16 then (decode (BitVec.ofNat 16 w)).toOption else none

/-! ## Response words (R50) -/

/-- The cause codes (R85). -/
def Cause.code : Cause → Byte
  | .invalidArgument => 1
  | .illegalCommand => 2
  | .consumed => 3

/-- The cause of a code, none for a code R85 does not give. -/
def Cause.ofCode (b : Byte) : Option Cause :=
  match b.toNat with
  | 1 => some .invalidArgument
  | 2 => some .illegalCommand
  | 3 => some .consumed
  | _ => none

/-- A response word: `kind`, zero, `payload` (R50). -/
def rspWordOf (kind : BitVec 4) (payload : Byte) : Word := (kind.setWidth 16 <<< 12) ||| payload.setWidth 16

/-- The word of a response (R50). -/
def Rsp.word : Rsp → Word
  | .ack => rspWordOf 0x1 0
  | .data b => rspWordOf 0x2 b
  | .done n => rspWordOf 0x3 n
  | .val v => rspWordOf 0x4 v
  | .err c => rspWordOf 0xF c.code

/-- The response a word stands for; none for a word R50 gives no response (such a word is never emitted). -/
def Rsp.ofWord (w : Word) : Option Rsp :=
  if w.extractLsb' 8 4 ≠ 0 then none
  else match (w.extractLsb' 12 4).toNat with
    | 1 => if w.extractLsb' 0 8 = 0 then some .ack else none
    | 2 => some (.data (w.extractLsb' 0 8))
    | 3 => some (.done (w.extractLsb' 0 8))
    | 4 => some (.val (w.extractLsb' 0 8))
    | 15 => (Cause.ofCode (w.extractLsb' 0 8)).map .err
    | _ => none

/-! ## Assembler (R53, R54) -/

/-- The preset's name in assembler text (R53). -/
def Preset.name : Preset → Nat
  | .p224 => 224
  | .p256 => 256
  | .p384 => 384
  | .p512 => 512

/-- FINALFULL in preset `p`: `FINAL d` (R54). -/
def asmFinalFull (p : Preset) : List Word := [encode (.final (BitVec.ofNat 8 p.digestSize))]

/-- `INIT` with a preset's name; nothing for a name that is none (an ill-formed line). -/
def asmInit (p : Nat) : List Word := ((Preset.ofName p).map fun m => encode (.init m)).toList

/-- One ABSORB per byte, in sequence order (R54, R41). -/
def asmUpdate (bs : List Nat) : List Word := bs.map fun b => encode (.absorb (BitVec.ofNat 8 b))

/-- The words of a well-formed line, `p` the preset in force before it (R54). -/
def Asm.words (p : Preset) : Asm → List Word
  | .reset => [encode .reset]
  | .init q => asmInit q
  | .absorb b => asmUpdate [b]
  | .final n => [encode (.final (BitVec.ofNat 8 n))]
  | .qdsz => [encode .qdsz]
  | .qrate => [encode .qrate]
  | .word w => [BitVec.ofNat 16 w]
  | .update bs => asmUpdate bs
  | .updateText t => asmUpdate (t.toList.map Char.toNat)
  | .finalFull => asmFinalFull p
  | .hash q bs => asmInit q ++ asmUpdate bs ++ asmFinalFull ((Preset.ofName q).getD p)

/-- The preset in force after a word: an INIT word changes it (R81), no other word does. -/
def presetAfterWord (p : Preset) (w : Word) : Preset :=
  match decode w with
  | .ok (.init m) => m
  | _ => p

/-- The preset in force after a line, which the assembler must know for FINALFULL (R54). Log 22. -/
def Asm.presetAfter (p : Preset) (a : Asm) : Preset := (a.words p).foldl presetAfterWord p

/-- The words of a program, `p` the preset in force at its start. -/
def assemble : Preset → List Asm → List Word
  | _, [] => []
  | p, a :: rest => a.words p ++ assemble (a.presetAfter p) rest

/-- The text of a command (R53). -/
def Instr.text : Instr → String
  | .reset => "RESET"
  | .init m => "INIT " ++ toString m.name
  | .absorb d => "ABSORB " ++ toString d.toNat
  | .final n => "FINAL " ++ toString n.toNat
  | .qdsz => "QDSZ"
  | .qrate => "QRATE"

/-- The text of a command word: the command, or `.word w` for an illegal one (R53). -/
def wordText (w : Word) : String :=
  match decode w with
  | .ok i => i.text
  | .error _ => ".word " ++ toString w.toNat

/-- The text of a response (R53). -/
def Rsp.text : Rsp → String
  | .ack => "ACK"
  | .data b => "DATA " ++ toString b.toNat
  | .done n => "DONE " ++ toString n.toNat
  | .val v => "VAL " ++ toString v.toNat
  | .err c => "ERR " ++ toString c.code.toNat

end Sys2Proof
end

