-- ==== Sys2Proof/Machine/State.lean ====
section
/-! DEFINITION. The state of the engine as plain data (spec/10_state.md R10 to R27), the host's moves (30_encoding.md R43, R44;
70_reset_and_hazards.md R101), the reasons a step can stop, and the state after hardware reset (R27, R100). -/

namespace Sys2Proof.Machine

/-- The 25 lanes; lane (x, y) is at index `x + 5*y` (R10, R11). -/
abbrev Lanes := Vector Lane 25

/-- A byte store: the bytes that differ from what an unlisted offset reads as, offsets rising (`Memory.wf` in Ops.lean). It
holds the absorb buffer, offsets 0 to 143 (R28). -/
abbrev Memory := List Host.Cell

/-- `PHASE` (R19). Values 5, 6, 7 of the 3-bit register are never entered and have no name. -/
inductive Phase where
  /-- 0: waiting for a command. -/
  | idle
  /-- 1: XORing a block into the lanes. -/
  | xorb
  /-- 2: running the permutation. -/
  | perm
  /-- 3: emitting digest bytes. -/
  | sqz
  /-- 4: emitting the completion word. -/
  | respond
deriving DecidableEq, Repr

/-- The command in progress, sampled at the accepting edge (R39): what a busy sequencer still has to do (R18). Log 8. -/
inductive Job where
  /-- Emit this completion word. -/
  | reply (r : Rsp)
  /-- An ABSORB that filled the buffer: XORB, PERM, then ACK. -/
  | block
  /-- A FINAL that passed its checks: XORB, PERM, SQZ, then DONE. -/
  | digest (size : Byte)
deriving DecidableEq, Repr

/-- The input pins at one rising clock edge (R43). -/
structure Pins where
  rst : Bool
  cfgMode : Preset
  cmdValid : Bool
  cmd : Word
  rspReady : Bool
deriving DecidableEq, Repr

/-- What the host can do between two steps. `send` and `take` are the moves R44 abstracts the handshakes to, `hwReset` is the
move of R101, `edge` is one rising clock edge with given pins (R43). Log 4. -/
inductive HostMove where
  | send (w : Word)
  | take
  | hwReset (m : Preset)
  | edge (p : Pins)
deriving DecidableEq, Repr

/-- Named stops of the model. Each is raised only in states that no run reaches (Safety.lean's `EngineInv` rules them out), where no
rule of the spec gives a meaning; each is safe. -/
inductive Fault where
  /-- Raised by ABSORB and FINAL, and by the sequencer's XORB, when `CNT >= r`: R14 and R71 give a meaning only to
  `CNT <= r - 1`. Safe. Log 6. -/
  | fillBeyondRate
  /-- Raised by a clock edge in a busy phase with no matching command in progress, or with `RND` or `SQI` out of the range
  of R20, R21. Safe. Log 7. -/
  | sequencerState
deriving DecidableEq, Repr

/-- Named refusals of the model. -/
inductive Refusal where
  /-- Raised by exec for an instruction without a meaning. Safe. -/
  | notModelled (mnemonic : String)
  /-- Raised by a clock edge or a `send` when the host changed `cmd` or dropped `cmd_valid` after raising it and before the
  accepting edge: "the behaviour of the hardware is not specified by any rule here" (R107, U11). Safe. Log 9. -/
  | handshakeBroken
deriving DecidableEq, Repr

/-- The state: the spec's (R25 and R22), then the parameters (R4), then the model's own. -/
structure State where
  /-- `S[0]` .. `S[24]` (R10). -/
  lanes : Lanes
  /-- `BUF` (R13). -/
  buf : Memory
  /-- `CNT` (R14). -/
  cnt : Nat
  /-- `MODE` (R15). -/
  mode : Preset
  /-- `FIN` (R16). -/
  fin : Bool
  /-- `PHASE` (R19). -/
  phase : Phase
  /-- `RND` (R20). -/
  rnd : Nat
  /-- `SQI` (R21). -/
  sqi : Nat
  /-- `RQ`, head first (R22). -/
  rq : List Word
  /-- The command in progress while busy. Log 8. -/
  job : Option Job
  /-- The parameters of R4; nothing writes them. -/
  params : Params
  /-- The command word on the port with `cmd_valid` up and not yet accepted, which the host must hold (R44). Log 9. -/
  offered : Option Word
  /-- The host's coming moves, the next first. Log 4. -/
  inbox : List HostMove
  /-- The response words the host has taken, oldest first: the observable result of a run (R109). Log 14. -/
  taken : List Word
deriving DecidableEq, Repr

/-- The state after hardware reset with parameters `p` and `MODE_RESET = m` (R27, R100), the host still to move. -/
def State.resetOf (p : Params) (m : Preset) : State where
  lanes := Vector.replicate 25 0
  buf := []
  cnt := 0
  mode := m
  fin := false
  phase := .idle
  rnd := 0
  sqi := 0
  rq := []
  job := none
  params := p
  offered := none
  inbox := []
  taken := []

/-- The machine right after reset, with the default parameters of R4. `MODE_RESET` is OPEN in the spec (R4, D5): DESIGN CHOICE
preset 224 (number 0), unsafe, log 1. Statements about reset are about `State.resetOf`, for every parameter and preset. -/
def State.reset : State := State.resetOf Params.default .p224

end Sys2Proof.Machine
end

