-- ==== Sys2Proof/Machine/Operands.lean ====
section
/-! DEFINITION. Operand forms: the sizes a preset gives (spec/10_state.md R15), the `size` operand (30_encoding.md R46), lane
rotation (00_scope.md R6), bytes of a lane and lanes of a block (R5; 20_memory.md R31), and the 2-bit, 3-bit and parameter
values as numbers. -/

namespace Sys2Proof.Machine

/-- `r`, the rate of a preset in bytes: `r = 200 - 2*d` (R15, R80). -/
def rate (m : Preset) : Nat := Config.stateBytes - 2 * m.digestSize

/-- `r/8`, the lanes XORed per block (R15). -/
def lanesPerBlock (m : Preset) : Nat := rate m / 8

/-- `c = 200 - r`, the capacity in bytes (R15, R80). -/
def capacity (m : Preset) : Nat := Config.stateBytes - rate m

/-- `size = zext(arg)` (R46). -/
def sizeOperand (arg : Byte) : Nat := arg.toNat

/-- A size or rate as the payload of a response word (R50: every payload fits in 8 bits). -/
def payload (n : Nat) : Byte := BitVec.ofNat 8 n

/-- `rotl64(a, n)` for `n` in 0..63 (R6); a rotation by 0 is the identity, not a shift by 64 (R56). -/
def rotl64 (a : Lane) (n : Nat) : Lane :=
  if n = 0 then a else (a <<< n) ||| (a >>> (Config.laneBits - n))

/-- Byte `j` of a lane, `v[8*j+7 : 8*j]` (R5). -/
def laneByte (v : Lane) (j : Nat) : Byte := v.extractLsb' (8 * j) 8

/-- Byte `k` of a block; a block is the list of its `r` bytes and is read at offsets below `r` only (R31). -/
def blockByte (blk : List Byte) (k : Nat) : Byte := blk.getD k 0

/-- A byte at byte position `t` of a lane, `zext_64(b) << (8*t)` (R31). -/
def byteInLane (b : Byte) (t : Nat) : Lane := b.setWidth 64 <<< (8 * t)

/-- `lane_of(blk, j)` (R31): block bytes `8j .. 8j+7`, `blk[8j]` in bits 7..0. The eight terms have no bit in common, so the sum R31
writes is their OR. -/
def laneOf (blk : List Byte) (j : Nat) : Lane :=
  byteInLane (blockByte blk (8 * j)) 0 ||| byteInLane (blockByte blk (8 * j + 1)) 1 |||
  byteInLane (blockByte blk (8 * j + 2)) 2 ||| byteInLane (blockByte blk (8 * j + 3)) 3 |||
  byteInLane (blockByte blk (8 * j + 4)) 4 ||| byteInLane (blockByte blk (8 * j + 5)) 5 |||
  byteInLane (blockByte blk (8 * j + 6)) 6 ||| byteInLane (blockByte blk (8 * j + 7)) 7

/-- The number of a phase (R19). -/
def Phase.code : Phase → BitVec 3
  | .idle => 0
  | .xorb => 1
  | .perm => 2
  | .sqz => 3
  | .respond => 4

end Sys2Proof.Machine

namespace Sys2Proof

/-- `ROUNDS_PER_CYCLE` as a number (R4). -/
def RoundsPerCycle.count : RoundsPerCycle → Nat
  | .r1 => 1
  | .r2 => 2
  | .r3 => 3
  | .r4 => 4
  | .r6 => 6
  | .r8 => 8
  | .r12 => 12
  | .r24 => 24

end Sys2Proof
end

