-- ==== Sys2Proof/Machine/Ops.lean ====
section
/-! DEFINITION. The named operations over the engine's storage: the byte store and BUF, the byte view of the lanes, the response
queue, clearing for a new message, hardware reset, and error entry, one shared operation (spec/20_memory.md R28 to R33,
10_state.md R22, 60_exceptions.md R90, 70_reset_and_hazards.md R100). -/

namespace Sys2Proof.Machine

/-- The result of a step or a meaning. -/
abbrev Result := Host.Outcome State Fault Refusal

/-! ## The byte store -/

/-- What an unlisted offset reads as. The spec calls BUF beyond CNT "don't care" and never reads it (R13, U6): DESIGN CHOICE
0x00, log 3. -/
abbrev Memory.unlisted : Byte := 0

/-- The byte at an offset. -/
def Memory.read : Memory → Nat → Byte
  | [], _ => Memory.unlisted
  | c :: m, k => if k = c.1 then c.2 else Memory.read m k

/-- Write one byte, keeping the canonical form: offsets rise, and the value an unlisted offset reads as removes the entry. -/
def Memory.write : Memory → Nat → Byte → Memory
  | [], k, v => if v = Memory.unlisted then [] else [(k, v)]
  | c :: m, k, v =>
    if k < c.1 then if v = Memory.unlisted then c :: m else (k, v) :: c :: m
    else if k = c.1 then if v = Memory.unlisted then m else (k, v) :: m
    else c :: Memory.write m k v

/-- The canonical form: offsets strictly rising and below `RMAX` (R28), no entry equal to what an unlisted offset reads as. -/
abbrev Memory.wf (m : Memory) : Prop :=
  m.Pairwise (fun a b => a.1 < b.1) ∧ ∀ c ∈ m, c.2 ≠ Memory.unlisted ∧ c.1 < Config.rMax

/-! ## BUF and CNT (R13, R14) -/

/-- `MemRead(BUF, k, 1)`. -/
def bufRead (s : State) (k : Nat) : Byte := s.buf.read k

/-- `BUF[0 .. CNT-1]` in offset order. -/
def bufBytes (s : State) : List Byte := (List.range s.cnt).map (bufRead s)

/-- `MemWrite(BUF, CNT, 1, data); CNT <- CNT + 1` (R74), for `CNT <= r - 1` as R14 has it at every command boundary; none
otherwise (log 6). -/
def bufPush (data : Byte) (s : State) : Option State :=
  if s.cnt < rate s.mode then some { s with buf := s.buf.write s.cnt data, cnt := s.cnt + 1 } else none

/-- `CNT <- 0`: the buffer is empty (R13, R74, R75). -/
def bufEmpty (s : State) : State := { s with buf := [], cnt := 0 }

/-! ## The lanes and their byte view (R11, R30) -/

/-- All-zero lanes (R27). -/
def zeroLanes : Lanes := Vector.replicate 25 0

/-- `L(x, y) = S[x + 5*y]`, index arithmetic on `x` and `y` modulo 5 (R11; 40_permutation.md, preamble). -/
def laneAt (A : Lanes) (x y : Nat) : Lane := A[x % 5 + 5 * (y % 5)]

/-- `ST[k]`, byte `k mod 8` of lane `k div 8` (R30). `k` is below 200; there is no byte beyond, and no caller asks for one. -/
def stByte (A : Lanes) (k : Nat) : Byte := laneByte (A[k / 8]?.getD 0) (k % 8)

/-- `MemRead(ST, a, n)`, `a + n <= 200` (R30). -/
def stRead (A : Lanes) (a n : Nat) : List Byte := (List.range n).map fun i => stByte A (a + i)

/-! ## The response queue (R22) -/

/-- `emit(w)` appends the word of a response (R22, R50). -/
def emit (r : Rsp) (s : State) : State := { s with rq := s.rq ++ [r.word] }

/-- Emit several, in order. -/
def emitAll (rs : List Rsp) (s : State) : State := { s with rq := s.rq ++ rs.map Rsp.word }

/-- The host takes the head of RQ, exactly once (R22, R44); with RQ empty nothing is taken (log 13). -/
def takeRsp (s : State) : State :=
  match s.rq with
  | [] => s
  | w :: rest => { s with rq := rest, taken := s.taken ++ [w] }

/-- RQ has no room for a word (R22: `RSP_DEPTH` entries in hardware). Read by the sequencer only: the queue of the atomic
commands is unbounded (R22, R104). -/
def rqFull (s : State) : Bool := decide (s.params.rspDepth ≤ s.rq.length)

/-! ## A new message; hardware reset -/

/-- What RESET, INIT and hardware reset have in common: lanes zero, BUF empty, CNT and FIN zero (R27). -/
def clearMessage (s : State) : State := { bufEmpty s with lanes := zeroLanes, fin := false }

/-- Hardware reset with `m` on `cfg_mode`: every state of R100 at its reset value, a command in progress abandoned, RQ emptied,
no response (R100, R101). The parameters, what the host took and its coming moves are not the engine's to reset. -/
def hardwareReset (m : Preset) (s : State) : State :=
  { clearMessage s with mode := m, phase := .idle, rnd := 0, sqi := 0, rq := [], job := none, offered := none }

/-! ## Error entry (R90) -/

/-- A command raises an error: nothing changes, exactly one word `0xF000 | cause` is appended to RQ as the command's completion
word (R85, R90). There is no return: nothing is saved and control goes nowhere (R91). -/
def raiseErr (c : Cause) (s : State) : Result := .next (emit (.err c) s)

end Sys2Proof.Machine
end

