-- ==== Sys2Proof/Machine/Flags.lean ====
section
/-! DEFINITION. The one status bit, FIN (spec/10_state.md R16, R17), and the checks a command makes before its first state change,
in the order of priority R92 gives. -/

namespace Sys2Proof.Machine

/-- `FIN <- 1`: a FINAL has succeeded (R16, R75). -/
def setFin (s : State) : State := { s with fin := true }

/-- `size > d`, unsigned (R86). -/
def sizeExceeds (m : Preset) (size : Byte) : Bool := decide (m.digestSize < sizeOperand size)

/-- The error ABSORB raises, if any: Consumed when `FIN = 1` (R74, R88). -/
def absorbError (s : State) : Option Cause := if s.fin then some .consumed else none

/-- The error FINAL raises, if any: InvalidArgument first, then Consumed (R75, R92). -/
def finalError (size : Byte) (s : State) : Option Cause :=
  if sizeExceeds s.mode size then some .invalidArgument
  else if s.fin then some .consumed
  else none

end Sys2Proof.Machine
end

