-- ==== Sys2Proof/Machine/Permutation.lean ====
section
/-! DEFINITION. The permutation Keccak-f[1600] (spec/40_permutation.md R55 to R66): the three constant tables, the five steps, a
round, and the 24 rounds. Every right-hand side reads the state before the step. Where the source words THETA otherwise, the
spec follows 90_conflicts.md C2. The tables and THETA's indices are the spec's general-knowledge passages (GK1 to GK4, log 20). -/

namespace Sys2Proof.Machine

/-! ## The constant tables (R24) -/

/-- One step of the generator of R57: its 8-bit register shifted left as a 9-bit value, with the feedback `0x171` from bit 8. -/
def lfsrNext (R : Nat) : Nat := if 256 ≤ 2 * R then (2 * R) ^^^ 0x171 else 2 * R

/-- `steps` steps of the generator, the first with index `j`: the register after them, and `rc` with bit `2^j - 1` set at each step
that begins with bit 0 of the register 1 (R57). -/
def lfsrConstant : (steps j R : Nat) → (rc : Lane) → Nat × Lane
  | 0, _, R, rc => (R, rc)
  | n + 1, j, R, rc =>
    lfsrConstant n (j + 1) (lfsrNext R) (if R % 2 = 1 then rc ||| (1 <<< (2 ^ j - 1)) else rc)

/-- `n` round constants, seven steps of the generator each, from register `R`. -/
def lfsrTable : (n R : Nat) → List Lane
  | 0, _ => []
  | n + 1, R => (lfsrConstant 7 0 R 0).2 :: lfsrTable n (lfsrConstant 7 0 R 0).1

/-- `ROM_RC`, the round constants, by the procedure of R57 from `R = 0x01`. That its entries are the published values R57 prints is
stated in `Obligations.RoundConstantsFollowTheProcedure`. -/
def romRc : Vector Lane 24 := ⟨(lfsrTable 24 0x01).toArray, rfl⟩

/-- `ROM_RHO`, the rotation offset of each lane (R58). -/
def romRho : Vector Nat 25 :=
  #v[0, 1, 62, 28, 27,
     36, 44, 6, 55, 20,
     3, 10, 43, 25, 39,
     41, 45, 15, 21, 8,
     18, 2, 61, 56, 14]

/-- `ROM_PI`, the position each lane moves to (R59). -/
def romPi : Vector (Fin 25) 25 :=
  #v[0, 10, 20, 5, 15, 16, 1, 11, 21, 6, 7, 17, 2, 12, 22, 23, 8, 18, 3, 13, 14, 24, 9, 19, 4]

/-- `PI_SRC`, the lane that arrives at each position: the inverse of `ROM_PI` (R59). -/
def piSrc : Vector (Fin 25) 25 :=
  #v[0, 6, 12, 18, 24, 3, 9, 10, 16, 22, 1, 7, 13, 19, 20, 4, 5, 11, 17, 23, 2, 8, 14, 15, 21]

/-! ## The five steps -/

/-- `C[x]`, the XOR of the five lanes of column `x` (R60). -/
def columnParity (A : Lanes) (x : Nat) : Lane :=
  laneAt A x 0 ^^^ laneAt A x 1 ^^^ laneAt A x 2 ^^^ laneAt A x 3 ^^^ laneAt A x 4

/-- `D[x] = C[(x+4) mod 5] ^ rotl64(C[(x+1) mod 5], 1)` (R60; 90_conflicts.md C2). -/
def thetaEffect (A : Lanes) (x : Nat) : Lane := columnParity A (x + 4) ^^^ rotl64 (columnParity A (x + 1)) 1

/-- THETA (R60). The five `D[x]` are computed once. -/
def theta (A : Lanes) : Lanes :=
  let D : Vector Lane 5 := Vector.ofFn fun x => thetaEffect A x
  Vector.ofFn fun i => A[i] ^^^ D[i.val % 5]

/-- RHO (R61). -/
def rho (A : Lanes) : Lanes := Vector.ofFn fun i => rotl64 A[i] romRho[i]

/-- PI (R62): `A'[j] = A[PI_SRC[j]]`. -/
def piStep (A : Lanes) : Lanes := Vector.ofFn fun j => A[piSrc[j]]

/-- CHI (R63): lane `i` is at column `i mod 5`, row `i div 5`. -/
def chi (A : Lanes) : Lanes :=
  Vector.ofFn fun i => A[i] ^^^ (~~~laneAt A (i.val + 1) (i.val / 5) &&& laneAt A (i.val + 2) (i.val / 5))

/-- IOTA (R64): the round constant of round `ir`, `ir` in 0..23, into lane 0 only. -/
def iota (A : Lanes) (ir : Nat) : Lanes := A.set 0 (A[0] ^^^ romRc[ir]?.getD 0)

/-! ## Round and permutation -/

/-- ROUND (R65). -/
def keccakRound (A : Lanes) (ir : Nat) : Lanes := iota (chi (piStep (rho (theta A)))) ir

/-- `n` rounds in ascending order, the first with index `ir`. -/
def rounds : (ir n : Nat) → Lanes → Lanes
  | _, 0, A => A
  | ir, n + 1, A => rounds (ir + 1) n (keccakRound A ir)

/-- PERMUTE (R66): rounds 0 to 23. Irreducible so that no unifier unfolds 24 rounds; `rw [permute]` still opens it. -/
@[irreducible] def permute (A : Lanes) : Lanes := rounds 0 Config.nRounds A

end Sys2Proof.Machine
end

