-- ==== Sys2Proof/Machine/Sponge.lean ====
section
/-! DEFINITION. The sponge's internal operations XORBLOCK, PADBLOCK, SQUEEZE (spec/41_sponge.md R70, R71, R72) and the two pieces of
work ABSORB and FINAL are made of (R74, R75). -/

namespace Sys2Proof.Machine

/-- XORBLOCK (R70): lanes `0 .. n-1`, `n = r/8`, are XORed with the block; the others are not written. Irreducible, as
`permute` is, so that no unifier compares lanes by computing them. -/
@[irreducible] def xorBlock (n : Nat) (blk : List Byte) (A : Lanes) : Lanes :=
  Vector.ofFn fun i => if i.val < n then A[i] ^^^ laneOf blk i else A[i]

/-- The padded block of a tail of fewer than `r` bytes (R71): the tail, zero fill to `r` bytes, then the rule's pad bytes. -/
def padTail (rule : PadRule) (r : Nat) (tail : List Byte) : List Byte :=
  let blk := tail ++ List.replicate (r - tail.length) 0x00
  match rule with
  | .lone80 => blk.set tail.length 0x80
  | .pad10star1 => (blk.modify tail.length (· ^^^ 0x01)).modify (r - 1) (· ^^^ 0x80)

/-- PADBLOCK (R71), for `CNT <= r - 1`; none otherwise (log 6). -/
def padBlock (s : State) : Option (List Byte) :=
  if s.cnt < rate s.mode then some (padTail s.params.padRule (rate s.mode) (bufBytes s)) else none

/-- SQUEEZE (R72): the DATA responses of digest bytes `0 .. size-1`. -/
def squeeze (A : Lanes) (size : Nat) : List Rsp := (stRead A 0 size).map Rsp.data

/-- The lanes after XORBLOCK and PERMUTE of one block (R74, R75). -/
def absorbBlock (m : Preset) (blk : List Byte) (A : Lanes) : Lanes := permute (xorBlock (lanesPerBlock m) blk A)

/-- The block boundary of ABSORB (R74): XORBLOCK(BUF[0 .. r-1]); PERMUTE; CNT <- 0. -/
def blockBoundary (s : State) : State :=
  bufEmpty { s with lanes := absorbBlock s.mode (bufBytes s) s.lanes }

end Sys2Proof.Machine
end

