-- ==== Sys2Proof/Machine/Accessors.lean ====
section
/-! DEFINITION. The accessors QDSZ (spec/42_presets_accessors.md R82) and QRATE (R83): no state change but the VAL word in RQ, legal
in every condition. -/

namespace Sys2Proof.Machine

/-- QDSZ (R82): VAL d. -/
def execQdsz (s : State) : Result := .next (emit (.val (payload s.mode.digestSize)) s)

/-- QRATE (R83): VAL r. -/
def execQrate (s : State) : Result := .next (emit (.val (payload (rate s.mode))) s)

end Sys2Proof.Machine
end

