-- ==== Sys2Proof/Machine/Lifecycle.lean ====
section
/-! DEFINITION. The commands that start a message: RESET (spec/41_sponge.md R73) and INIT (42_presets_accessors.md R81). Legal in
every condition, no failure. -/

namespace Sys2Proof.Machine

/-- RESET (R73). MODE is kept and RQ is not flushed. -/
def execReset (s : State) : Result := .next (emit .ack (clearMessage s))

/-- INIT (R81): RESET preceded by a write of MODE. -/
def execInit (m : Preset) (s : State) : Result := .next (emit .ack (clearMessage { s with mode := m }))

end Sys2Proof.Machine
end

