-- ==== Sys2Proof/Machine/Message.lean ====
section
/-! DEFINITION. The commands that hash: ABSORB (spec/41_sponge.md R74) and FINAL (R75). All checks come before the first state
change (R90). -/

namespace Sys2Proof.Machine

/-- ABSORB (R74). The block boundary is taken by the ABSORB that delivers the `r`-th byte. -/
def execAbsorb (data : Byte) (s : State) : Result :=
  match absorbError s with
  | some c => raiseErr c s
  | none =>
    match bufPush data s with
    | none => .fault .fillBeyondRate
    | some t => .next (emit .ack (if t.cnt = rate t.mode then blockBoundary t else t))

/-- FINAL (R75): the terminal permutation runs exactly once, then SQUEEZE, then `CNT <- 0; FIN <- 1`, then DONE. -/
def execFinal (size : Byte) (s : State) : Result :=
  match finalError size s with
  | some c => raiseErr c s
  | none =>
    match padBlock s with
    | none => .fault .fillBeyondRate
    | some blk =>
      let A := absorbBlock s.mode blk s.lanes
      .next (emit (.done size) (setFin (bufEmpty (emitAll (squeeze A (sizeOperand size)) { s with lanes := A }))))

end Sys2Proof.Machine
end

