-- ==== Sys2Proof/Machine/Dispatch.lean ====
section
/-! DEFINITION. One arm per command: the command executed as one atomic step (spec/20_memory.md R36). -/

namespace Sys2Proof.Machine

def exec (i : Instr) (s : State) : Host.Outcome State Fault Refusal :=
  match i with
  | .reset => Sys2Proof.Machine.execReset s
  | .init mode => Sys2Proof.Machine.execInit mode s
  | .absorb data => Sys2Proof.Machine.execAbsorb data s
  | .final size => Sys2Proof.Machine.execFinal size s
  | .qdsz => Sys2Proof.Machine.execQdsz s
  | .qrate => Sys2Proof.Machine.execQrate s

end Sys2Proof.Machine
end

