-- ==== Sys2Proof/Machine/Sequencer.lean ====
section
/-! DEFINITION. The engine at pin level: one rising clock edge (spec/30_encoding.md R43, R44), the sequencer PHASE, RND, SQI
(10_state.md R18 to R21; 40_permutation.md R67), back-pressure (70_reset_and_hazards.md R104) and hardware reset (R100, R101).
No command's result depends on which edge of a busy command makes which state change, and none is visible (R23, R110); the
edges chosen here give the clock counts of R110. Log 10, log 11. -/

namespace Sys2Proof.Machine

/-! ## Output pins -/

/-- `cmd_ready = (PHASE = IDLE) and not rst` (R43). -/
def cmdReady (p : Pins) (s : State) : Bool := decide (s.phase = .idle) && !p.rst

/-- `rsp_valid`: RQ is not empty; 0 while `rst = 1` (R43, R100). -/
def rspValid (p : Pins) (s : State) : Bool := !s.rq.isEmpty && !p.rst

/-- `rsp`: the head of RQ; no value while RQ is empty (R43). DESIGN CHOICE (log 15): `rsp` is undefined whenever `rsp_valid = 0` (R43,
U9), and this function reads RQ only, so at an edge with `rst = 1` and RQ not empty it still names the head. No meaning reads it. -/
def rspWord (s : State) : Option Word := s.rq.head?

/-! ## Input pins -/

/-- No reset, no command presented, no response taken. -/
def Pins.quiet : Pins := ⟨false, .p224, false, 0, false⟩

/-- The host presents `w` and takes no response. -/
def Pins.offer (w : Word) : Pins := { Pins.quiet with cmdValid := true, cmd := w }

/-- The command word on the port, if one is presented. -/
def Pins.presented (p : Pins) : Option Word := if p.cmdValid then some p.cmd else none

/-- The host has not held the word it presented and that is not yet accepted (R44, R107). -/
def holdBroken (p : Pins) (s : State) : Bool := decide (s.offered ≠ none ∧ p.presented ≠ s.offered)

/-! ## Acceptance: the edge that leaves IDLE (R18) -/

/-- Only the completion word is left to emit: IDLE -> RESPOND. -/
def startReply (r : Rsp) (s : State) : Result := .next { s with phase := .respond, job := some (.reply r) }

/-- A block is to be XORed in: IDLE -> XORB. -/
def startBlock (j : Job) (s : State) : Result := .next { s with phase := .xorb, job := some j }

/-- ABSORB at the accepting edge (R74, R18). -/
def startAbsorb (data : Byte) (s : State) : Result :=
  match absorbError s with
  | some c => startReply (.err c) s
  | none =>
    match bufPush data s with
    | none => .fault .fillBeyondRate
    | some t => if t.cnt = rate t.mode then startBlock .block t else startReply .ack t

/-- FINAL at the accepting edge (R75, R18). -/
def startFinal (size : Byte) (s : State) : Result :=
  match finalError size s with
  | some c => startReply (.err c) s
  | none => if s.cnt < rate s.mode then startBlock (.digest size) s else .fault .fillBeyondRate

/-- A command at the accepting edge. -/
def startCommand (i : Instr) (s : State) : Result :=
  match i with
  | .reset => startReply .ack (clearMessage s)
  | .init m => startReply .ack (clearMessage { s with mode := m })
  | .absorb data => startAbsorb data s
  | .final size => startFinal size s
  | .qdsz => startReply (.val (payload s.mode.digestSize)) s
  | .qrate => startReply (.val (payload (rate s.mode))) s

/-- A word at the accepting edge: sampled once (R39); an illegal one is accepted like any other (R48). -/
def startWord (w : Word) (s : State) : Result :=
  match decode w with
  | .ok i => startCommand i s
  | .error _ => startReply (.err .illegalCommand) s

/-! ## Busy edges -/

/-- XORB: the block, full or padded, into the lanes; then PERM with RND 0 (R18, R20). -/
def enterPerm (A : Lanes) (s : State) : State := { s with lanes := A, phase := .perm, rnd := 0 }

/-- An edge in XORB. -/
def xorbEdge (s : State) : Result :=
  match s.job with
  | some .block =>
    if s.cnt = rate s.mode then .next (enterPerm (xorBlock (lanesPerBlock s.mode) (bufBytes s) s.lanes) s)
    else .fault .sequencerState
  | some (.digest _) =>
    match padBlock s with
    | some blk => .next (enterPerm (xorBlock (lanesPerBlock s.mode) blk s.lanes) s)
    | none => .fault .fillBeyondRate
  | some (.reply _) => .fault .sequencerState
  | none => .fault .sequencerState

/-- Where PERM leads: SQZ for a FINAL that emits bytes, RESPOND otherwise (R18). -/
def phaseAfterPerm : Job → Phase
  | .digest size => if sizeOperand size = 0 then .respond else .sqz
  | .block | .reply _ => .respond

/-- An edge in PERM: `ROUNDS_PER_CYCLE` rounds; PERM is left when RND would reach 24, and RND returns to 0 (R20, R67). -/
def permEdge (s : State) : Result :=
  let k := s.params.roundsPerCycle.count
  match s.job with
  | some (.reply _) | none => .fault .sequencerState
  | some j =>
    if Config.nRounds < s.rnd + k then .fault .sequencerState
    else
      let t := { s with lanes := rounds s.rnd k s.lanes }
      if s.rnd + k = Config.nRounds then .next { t with phase := phaseAfterPerm j, rnd := 0, sqi := 0 }
      else .next { t with rnd := s.rnd + k }

/-- One digest byte (R21, R72); SQZ is left with SQI 0 after the last. -/
def squeezeOne (size : Byte) (s : State) : State :=
  let t := emit (.data (stByte s.lanes s.sqi)) s
  if s.sqi + 1 = sizeOperand size then { t with phase := .respond, sqi := 0 } else { t with sqi := s.sqi + 1 }

/-- An edge in SQZ: one DATA word, or a stall while RQ is full (R104). -/
def sqzEdge (s : State) : Result :=
  match s.job with
  | some (.digest size) =>
    if s.sqi < sizeOperand size ∧ sizeOperand size ≤ s.mode.digestSize then
      .next (if rqFull s then s else squeezeOne size s)
    else .fault .sequencerState
  | some .block | some (.reply _) | none => .fault .sequencerState

/-- The completion word a command in progress ends with (R50, R51). -/
def Job.completion : Job → Rsp
  | .reply r => r
  | .block => .ack
  | .digest size => .done size

/-- The state changes a command makes with its completion word (R74, R75). -/
def Job.finish : Job → State → State
  | .reply _, s => s
  | .block, s => bufEmpty s
  | .digest _, s => setFin (bufEmpty s)

/-- The sequencer back in IDLE (R18, R90). -/
def toIdle (s : State) : State := { s with phase := .idle, rnd := 0, sqi := 0, job := none }

/-- An edge in RESPOND: the completion word, or a stall while RQ is full (R104). -/
def respondEdge (s : State) : Result :=
  match s.job with
  | some j => .next (if rqFull s then s else toIdle (emit j.completion (j.finish s)))
  | none => .fault .sequencerState

/-- An edge of the sequencer in the phase it is in; in IDLE nothing happens without a command (R99). -/
def sequencerEdge (s : State) : Result :=
  match s.phase with
  | .idle => .next s
  | .xorb => xorbEdge s
  | .perm => permEdge s
  | .sqz => sqzEdge s
  | .respond => respondEdge s

/-! ## The clock edge -/

/-- What an edge with `rst = 0` does to the ports before the sequencer: the head of RQ is taken if `rsp_ready = 1` (so its entry
is free for a word emitted at the same edge, log 10), and the word presented is to be held unless it is accepted. -/
def portEdge (p : Pins) (s : State) : State :=
  { (if p.rspReady then takeRsp s else s) with offered := if s.phase = .idle then none else p.presented }

/-- One rising clock edge (R43, R44, R100). With `rst = 1` only the reset happens, whatever else the pins say (log 9). -/
def clockEdge (p : Pins) (s : State) : Result :=
  if p.rst then .next { hardwareReset p.cfgMode s with offered := p.presented }
  else if holdBroken p s then .refused .handshakeBroken
  else if s.phase = .idle ∧ p.cmdValid then startWord p.cmd (portEdge p s)
  else sequencerEdge (portEdge p s)

end Sys2Proof.Machine
end

