-- ==== Sys2Proof/Machine/Port.lean ====
section
/-! DEFINITION. The host's move *send(word)* (spec/30_encoding.md R44): enabled when the engine is idle, one command executed as one
atomic step (20_memory.md R36). -/

namespace Sys2Proof.Machine

/-- A command word executed atomically; an illegal word answers IllegalCommand (R48, R87). -/
def sendWord (w : Word) (s : State) : Result :=
  match decode w with
  | .ok i => exec i s
  | .error _ => raiseErr .illegalCommand s

/-- The move *send*: in IDLE the word is accepted and executed; while the engine is busy "the command simply waits" (R103): the
word is on the port for one clock edge and the move is still to come (`rest` is what follows it; log 12). -/
def sendMove (w : Word) (rest : List HostMove) (s : State) : Result :=
  if s.phase = .idle then
    if holdBroken (Pins.offer w) s then .refused .handshakeBroken
    else sendWord w { s with inbox := rest, offered := none }
  else clockEdge (Pins.offer w) s

/-- The engine ready to accept: sequencer in IDLE, no command in progress, no word held on the port. -/
def readyToAccept (s : State) : State := { toIdle s with offered := none }

/-- The `send` of an instruction given as a number (log 24). -/
def fetchMove (w : Nat) : HostMove := .send (BitVec.ofNat 16 w)

end Sys2Proof.Machine
end

