-- ==== Sys2Proof/Machine/Step.lean ====
section
/-! DEFINITION. One step of the machine: the next host move, or with no move to come a clock edge with quiet pins (log 4). Command
words come from outside the machine (spec/10_state.md R18); `State.withFetchWord` stands for the host sending one (log 24). -/

namespace Sys2Proof.Machine

/-- One step. -/
def step (s : State) : Host.Outcome State Fault Refusal :=
  match s.inbox with
  | [] => clockEdge Pins.quiet s
  | .send w :: rest => sendMove w rest s
  | .take :: rest => .next (takeRsp { s with inbox := rest })
  | .hwReset m :: rest => .next (hardwareReset m { s with inbox := rest })
  | .edge p :: rest => clockEdge p { s with inbox := rest }

/-- The state whose next step accepts and runs the word `w` (log 24). -/
def State.withFetchWord (s : State) (_nbits w : Nat) : State :=
  { readyToAccept s with inbox := fetchMove w :: s.inbox }

end Sys2Proof.Machine
end

