-- ==== Sys2Proof/Safety.lean ====
section
/-! DEFINITION. The terms claims are stated in: a safe step, the invariant of every reachable state (spec/10_state.md R26, extended to
the busy phases R18 to R21), the function the engine computes (41_sponge.md R76), runs of commands and of clock edges
(70_reset_and_hazards.md R109), and the command-level view of a pin-level state (20_memory.md R36). -/

namespace Sys2Proof.Machine

/-! ## Safe steps and the invariant -/

/-- The next step neither faults nor is refused. -/
def Safe (s : State) : Prop := ∃ t, step s = .next t

/-- BUF in canonical form, with nothing listed at or beyond CNT (R13). -/
def BufInv (s : State) : Prop := Memory.wf s.buf ∧ ∀ c ∈ s.buf, c.1 < s.cnt

/-- What R26 says of CNT and FIN at a command boundary. -/
def RestingFill (s : State) : Prop := s.cnt < rate s.mode ∧ (s.fin = true → s.cnt = 0)

/-- The command in progress fits the registers: a full buffer for a block, an open one for a digest of a legal size. -/
def Job.fits : Job → State → Prop
  | .reply r, s => r.isCompletion = true ∧ RestingFill s
  | .block, s => s.cnt = rate s.mode ∧ s.fin = false
  | .digest size, s => sizeOperand size ≤ s.mode.digestSize ∧ s.cnt < rate s.mode ∧ s.fin = false

/-- The command in progress XORs a block in. -/
def Job.hasBlock : Job → Bool
  | .reply _ => false
  | .block | .digest _ => true

/-- The command in progress emits digest bytes from `sqi` on. -/
def Job.squeezesFrom (sqi : Nat) : Job → Prop
  | .reply _ | .block => False
  | .digest size => sqi < sizeOperand size

/-- RND and SQI (R20, R21) and the command in progress, by phase. -/
def PhaseInv (s : State) : Prop :=
  match s.phase with
  | .idle => s.job = none ∧ RestingFill s ∧ s.rnd = 0 ∧ s.sqi = 0
  | .xorb => (∃ j, s.job = some j ∧ j.hasBlock = true ∧ j.fits s) ∧ s.rnd = 0 ∧ s.sqi = 0
  | .perm => (∃ j, s.job = some j ∧ j.hasBlock = true ∧ j.fits s) ∧
      s.rnd < Config.nRounds ∧ s.params.roundsPerCycle.count ∣ s.rnd ∧ s.sqi = 0
  | .sqz => (∃ j, s.job = some j ∧ j.squeezesFrom s.sqi ∧ j.fits s) ∧ s.rnd = 0
  | .respond => (∃ j, s.job = some j ∧ j.fits s) ∧ s.rnd = 0 ∧ s.sqi = 0

/-- Every word of RQ and every word taken is a response word of R50. -/
def ResponsesInv (s : State) : Prop := ∀ w ∈ s.taken ++ s.rq, (Rsp.ofWord w).isSome = true

/-- The invariant of the engine. -/
def EngineInv (s : State) : Prop := BufInv s ∧ PhaseInv s ∧ ResponsesInv s ∧ 0 < s.params.rspDepth

/-- The engine at a command boundary: sequencer in IDLE with nothing in progress and no word held on the port. -/
def AtBoundary (s : State) : Prop := s.phase = .idle ∧ s.job = none ∧ s.rnd = 0 ∧ s.sqi = 0 ∧ s.offered = none

/-- A fresh message: the lanes, BUF, CNT and FIN as RESET, INIT and hardware reset leave them (R27). -/
def Fresh (s : State) : Prop := s.lanes = zeroLanes ∧ s.buf = [] ∧ s.cnt = 0 ∧ s.fin = false

/-! ## Runs -/

/-- No reset, no command presented, the head of RQ taken. -/
def Pins.drain : Pins := { Pins.quiet with rspReady := true }

/-- Commands executed one after another, each atomically (R36), stopping at the first that does not answer a next state. -/
def runCommands : List Instr → State → Result
  | [], s => .next s
  | i :: rest, s =>
    match exec i s with
    | .next t => runCommands rest t
    | .fault f => .fault f
    | .refused r => .refused r

/-- Words sent one after another. -/
def sendAll : List Word → State → Result
  | [], s => .next s
  | w :: rest, s =>
    match sendWord w s with
    | .next t => sendAll rest t
    | .fault f => .fault f
    | .refused r => .refused r

/-- Clock edges one after another. -/
def runEdges : List Pins → State → Result
  | [], s => .next s
  | p :: rest, s =>
    match clockEdge p s with
    | .next t => runEdges rest t
    | .fault f => .fault f
    | .refused r => .refused r

/-- The words a run of clock edges accepts: those presented at an edge with `cmd_ready = 1` (R44). -/
def acceptedWords : List Pins → State → List Word
  | [], _ => []
  | p :: rest, s =>
    let here := if cmdReady p s && p.cmdValid then [p.cmd] else []
    match clockEdge p s with
    | .next t => here ++ acceptedWords rest t
    | .fault _ | .refused _ => here

/-- The error a word answers with in a state, by the priority of R92: IllegalCommand, InvalidArgument, Consumed. -/
def wordError (w : Word) (s : State) : Option Cause :=
  match decode w with
  | .error _ => some .illegalCommand
  | .ok (.absorb _) => if s.fin = true then some .consumed else none
  | .ok (.final size) =>
    if s.mode.digestSize < size.toNat then some .invalidArgument
    else if s.fin = true then some .consumed else none
  | .ok .reset | .ok (.init _) | .ok .qdsz | .ok .qrate => none

/-! ## The function computed (R76) -/

/-- The lanes after `q` blocks of `r` bytes of a message, from lanes `A`: for each block XORBLOCK, then PERMUTE. -/
def absorbBlocks (m : Preset) : Nat → List Byte → Lanes → Lanes
  | 0, _, A => A
  | q + 1, msg, A =>
    absorbBlocks m q (msg.drop (rate m)) (permute (xorBlock (lanesPerBlock m) (msg.take (rate m)) A))

/-- `q = floor(n / r)`, the number of complete blocks of a message. -/
def blockCount (m : Preset) (msg : List Byte) : Nat := msg.length / rate m

/-- `T`, the tail of `n mod r` bytes. -/
def messageTail (m : Preset) (msg : List Byte) : List Byte := msg.drop (blockCount m msg * rate m)

/-- The lanes after the complete blocks of a message, from zero lanes. -/
def messageLanes (m : Preset) (msg : List Byte) : Lanes := absorbBlocks m (blockCount m msg) msg (Vector.replicate 25 0)

/-- The lanes after the padded tail and the terminal permutation. -/
def digestLanes (rule : PadRule) (m : Preset) (msg : List Byte) : Lanes :=
  permute (xorBlock (lanesPerBlock m) (padTail rule (rate m) (messageTail m msg)) (messageLanes m msg))

/-- The first `size` bytes of the digest of a message. -/
def spongeDigest (rule : PadRule) (m : Preset) (msg : List Byte) (size : Nat) : List Byte :=
  stRead (digestLanes rule m msg) 0 size

/-! ## The command-level view of a pin-level state -/

/-- The block of the command in progress. -/
def blockInProgress (s : State) : List Byte :=
  match s.job with
  | some .block => bufBytes s
  | some (.digest _) => padTail s.params.padRule (rate s.mode) (bufBytes s)
  | some (.reply _) | none => []

/-- The lanes when the command in progress has done its permutation. -/
def lanesToCome (s : State) : Lanes :=
  match s.phase with
  | .xorb => absorbBlock s.mode (blockInProgress s) s.lanes
  | .perm => rounds s.rnd (Config.nRounds - s.rnd) s.lanes
  | .idle | .sqz | .respond => s.lanes

/-- The DATA responses the command in progress has still to emit, `A` the lanes they come from. -/
def dataToCome (s : State) (A : Lanes) : List Rsp :=
  match s.job with
  | some (.digest size) =>
    match s.phase with
    | .xorb | .perm => squeeze A (sizeOperand size)
    | .sqz => (stRead A s.sqi (sizeOperand size - s.sqi)).map Rsp.data
    | .idle | .respond => []
  | some .block | some (.reply _) | none => []

/-- The state when the command in progress has completed, RQ unbounded as the command-level model has it (R22). -/
def settle (s : State) : State :=
  match s.job with
  | none => s
  | some j =>
    let A := lanesToCome s
    toIdle (emit j.completion (j.finish (emitAll (dataToCome s A) { s with lanes := A })))

/-- What the host can tell apart at the end of a run (R109): all responses in order, those not yet taken counted as taken; not
the word on the port. -/
def observe (s : State) : State := { s with taken := s.taken ++ s.rq, rq := [], offered := none }

/-! ## Clock counts (R110) -/

/-- `P = 24 / ROUNDS_PER_CYCLE`. -/
def permClocks (p : Params) : Nat := Config.nRounds / p.roundsPerCycle.count

/-- Clocks from acceptance to `cmd_ready = 1` again, the response port never stalling. -/
def commandClocks (i : Instr) (s : State) : Nat :=
  match i with
  | .reset | .init _ | .qdsz | .qrate => 1
  | .absorb _ => if s.fin = false ∧ s.cnt + 1 = rate s.mode then 1 + permClocks s.params + 1 else 1
  | .final size =>
    if s.fin = false ∧ size.toNat ≤ s.mode.digestSize then 1 + permClocks s.params + size.toNat + 1 else 1

/-! ## The generating walk of the rotation offsets (R58) -/

/-- The walk of R58 from `(x, y)` at step `t`: the lane indices visited with the offsets assigned. -/
def rhoWalk : (n t x y : Nat) → List (Nat × Nat)
  | 0, _, _, _ => []
  | n + 1, t, x, y => (x + 5 * y, ((t + 1) * (t + 2) / 2) % 64) :: rhoWalk n (t + 1) y ((2 * x + 3 * y) % 5)

end Sys2Proof.Machine
end

