-- ==== Sys2Proof/Certificates/Slice0/Obligations.lean ====
section
/-! DEFINITION. The statements for the provers. Each docstring names the rule or section of spec/ it formalises. A statement about
every state carries, where it could fail only in states no run reaches, the part of the invariant that rules them out;
that the invariant holds at reset and is kept are statements of their own. The parameters of R4 are fields of State, so
every statement is about both values of PAD_RULE, every ROUNDS_PER_CYCLE and every RSP_DEPTH. -/

open Sys2Proof Sys2Proof.Machine

/-! ## Encoding -/

/-- Derived from R45, R46, R47: decoding an encoded command gives it back, every operand at every value. -/
def Obligations.DecodeOfEncodeIsTheCommand : Prop :=
  ∀ i : Instr, decode (encode i) = .ok i

/-- Derived from R47, R48: a word that decodes is the encoding of what it decodes to, so no two words mean one command. -/
def Obligations.EncodeOfDecodeIsTheWord : Prop :=
  ∀ (w : Word) (i : Instr), decode w = .ok i → encode i = w

/-- R47: the six rows by match and mask, with their operands; no word matches two rows. -/
def Obligations.OpcodeMapRowsAreDisjoint : Prop :=
  (∀ m : Preset, decode (0x2000#16 ||| m.code.setWidth 16) = .ok (.init m)) ∧
  (∀ d : Byte, decode (0x3000#16 ||| d.setWidth 16) = .ok (.absorb d)) ∧
  (∀ n : Byte, decode (0x4000#16 ||| n.setWidth 16) = .ok (.final n)) ∧
  decode 0x1000#16 = .ok .reset ∧ decode 0x5000#16 = .ok .qdsz ∧ decode 0x6000#16 = .ok .qrate ∧
  (∀ (w : Word) (i : Instr), decode w = .ok i → (opRows.filter (·.covers w)).map (·.mnemonic) = [i.mnemonic]) ∧
  (∀ (w : Word) (e : DecodeError), decode w = .error e → opRows.filter (·.covers w) = [])

/-- R48, R87: which words are illegal, how many are, and what one does, whatever the state: the handshake accepts it like any
other and it answers the single word 0xF002. -/
def Obligations.IllegalWordsAreCountedAndRefused : Prop :=
  (∀ w : Word, isLegal w = false ↔
    (cmdOp w = 0x0#4 ∨ 0x7#4 ≤ cmdOp w) ∨ cmdZero w ≠ 0#4 ∨
    ((cmdOp w = 0x1#4 ∨ cmdOp w = 0x5#4 ∨ cmdOp w = 0x6#4) ∧ cmdArg w ≠ 0#8) ∨
    (cmdOp w = 0x2#4 ∧ (cmdArg w).extractLsb' 2 6 ≠ 0#6)) ∧
  (List.range 65536).countP (fun n => isLegal (BitVec.ofNat 16 n)) = 519 ∧
  (List.range 65536).countP (fun n => !isLegal (BitVec.ofNat 16 n)) = 65017 ∧
  isLegal 0x0000#16 = false ∧ isLegal 0xFFFF#16 = false ∧
  (∀ (w : Word) (s : State), isLegal w = false → sendWord w s = .next { s with rq := s.rq ++ [0xF002#16] }) ∧
  (∀ (p : Pins) (s : State), isLegal p.cmd = false → s.phase = .idle → s.offered = none → p.rst = false → p.cmdValid = true →
    cmdReady p s = true ∧ clockEdge p s =
      .next { portEdge p s with phase := .respond, job := some (.reply (.err .illegalCommand)) })

/-- Sanity, 95_test_vectors.md section 5.1: words written out from the encoding, legal and illegal. -/
def Obligations.SampleWordsDecodeAsListed : Prop :=
  decode 0b0001000000000000#16 = .ok .reset ∧
  decode 0b0010000000000010#16 = .ok (.init .p384) ∧
  decode 0b0011000010000000#16 = .ok (.absorb 0x80#8) ∧
  decode 0b0100000000100000#16 = .ok (.final 32#8) ∧
  decode 0b0101000000000000#16 = .ok .qdsz ∧
  decode 0b0110000000000000#16 = .ok .qrate ∧
  decode 0x1001#16 = .error .argNotZero ∧ decode 0x2004#16 = .error .initArgHighNotZero ∧
  decode 0x3100#16 = .error .zeroFieldNotZero ∧ decode 0x7000#16 = .error .unassignedOp

/-- Derived from R50, R85: the response words, that they read back, and that bits 11..8 are zero. -/
def Obligations.ResponseWordsReadBack : Prop :=
  (∀ r : Rsp, Rsp.ofWord r.word = some r ∧ r.word.extractLsb' 8 4 = 0#4) ∧
  (∀ w r, Rsp.ofWord w = some r → r.word = w) ∧
  Rsp.word .ack = 0x1000#16 ∧
  (∀ b : Byte, (Rsp.data b).word = 0x2000#16 ||| b.setWidth 16) ∧
  (∀ n : Byte, (Rsp.done n).word = 0x3000#16 ||| n.setWidth 16) ∧
  (∀ v : Byte, (Rsp.val v).word = 0x4000#16 ||| v.setWidth 16) ∧
  (Rsp.err .invalidArgument).word = 0xF001#16 ∧ (Rsp.err .illegalCommand).word = 0xF002#16 ∧
  (Rsp.err .consumed).word = 0xF003#16

/-- Derived from R53, R54, R41: a well-formed line but `.word` gives legal words only, UPDATE is one ABSORB per byte, and HASH is
INIT, UPDATE, FINALFULL. -/
def Obligations.AssemblerLinesExpandToCommands : Prop :=
  (∀ (p : Preset) (a : Asm), a.wf = true → (∀ w, a ≠ .word w) → ∀ w ∈ a.words p, isLegal w = true) ∧
  (∀ (p : Preset) (bs : List Byte),
    (Asm.update (bs.map BitVec.toNat)).words p = bs.map fun b => 0x3000#16 ||| b.setWidth 16) ∧
  (∀ (p : Preset) (q : Nat) (bs : List Nat), (Asm.hash q bs).wf = true →
    assemble p [.hash q bs] = assemble p [.init q, .update bs, .finalFull])

/-! ## Presets and tables -/

/-- R80: the four presets; `r = 200 - 2d`, a positive multiple of 8; `c = 2d`. -/
def Obligations.PresetSizesAndRates : Prop :=
  (∀ m : Preset, rate m = 200 - 2 * m.digestSize ∧ rate m % 8 = 0 ∧ 0 < rate m ∧
    capacity m = 2 * m.digestSize ∧ capacity m = 200 - rate m ∧ lanesPerBlock m = rate m / 8) ∧
  [Preset.p224, .p256, .p384, .p512].map Preset.code = [0, 1, 2, 3] ∧
  [Preset.p224, .p256, .p384, .p512].map Preset.digestSize = [28, 32, 48, 64] ∧
  [Preset.p224, .p256, .p384, .p512].map rate = [144, 136, 104, 72] ∧
  [Preset.p224, .p256, .p384, .p512].map lanesPerBlock = [18, 17, 13, 9] ∧
  (∀ b : BitVec 2, (Preset.ofCode b).code = b)

/-- R57: the 24 round constants are what the generating procedure gives, and its entries are the published values of the rule's
table; entries 6 and 20, and 5 and 22, are equal; only bits 0, 1, 3, 7, 15, 31 and 63 can be 1. -/
def Obligations.RoundConstantsFollowTheProcedure : Prop :=
  romRc.toList = lfsrTable 24 1 ∧ romRc[6] = romRc[20] ∧ romRc[5] = romRc[22] ∧
  romRc.toList.all (fun c => c &&& ~~~0x800000008000808B#64 == 0#64) = true ∧
  romRc[0] = 0x0000000000000001#64 ∧ romRc[1] = 0x0000000000008082#64 ∧
  romRc[2] = 0x800000000000808A#64 ∧ romRc[3] = 0x8000000080008000#64 ∧
  romRc[4] = 0x000000000000808B#64 ∧ romRc[5] = 0x0000000080000001#64 ∧
  romRc[6] = 0x8000000080008081#64 ∧ romRc[7] = 0x8000000000008009#64 ∧
  romRc[8] = 0x000000000000008A#64 ∧ romRc[9] = 0x0000000000000088#64 ∧
  romRc[10] = 0x0000000080008009#64 ∧ romRc[11] = 0x000000008000000A#64 ∧
  romRc[12] = 0x000000008000808B#64 ∧ romRc[13] = 0x800000000000008B#64 ∧
  romRc[14] = 0x8000000000008089#64 ∧ romRc[15] = 0x8000000000008003#64 ∧
  romRc[16] = 0x8000000000008002#64 ∧ romRc[17] = 0x8000000000000080#64 ∧
  romRc[18] = 0x000000000000800A#64 ∧ romRc[19] = 0x800000008000000A#64 ∧
  romRc[20] = 0x8000000080008081#64 ∧ romRc[21] = 0x8000000000008080#64 ∧
  romRc[22] = 0x0000000080000001#64 ∧ romRc[23] = 0x8000000080008008#64

/-- R58, R59: the rotation offsets are what the walk assigns, the walk visits each lane but lane 0 exactly once, every offset is in
0..63 and only entry 0 is zero; `ROM_PI` is the formula's table, a bijection with the single fixed point 0, and `PI_SRC` its inverse. -/
def Obligations.RotationAndPositionTablesFollowTheirFormulas : Prop :=
  romRho[0] = 0 ∧ (∀ i : Fin 25, romRho[i] < 64 ∧ (romRho[i] = 0 → i = 0)) ∧
  (rhoWalk 24 0 1 0).all (fun e => romRho[e.1]? == some e.2) = true ∧
  ((rhoWalk 24 0 1 0).map Prod.fst).Nodup ∧ ((rhoWalk 24 0 1 0).map Prod.fst).all (fun i => decide (0 < i ∧ i < 25)) = true ∧
  (∀ i : Fin 25, romPi[i].val = i.val / 5 + 5 * ((2 * (i.val % 5) + 3 * (i.val / 5)) % 5)) ∧
  (∀ i : Fin 25, piSrc[romPi[i]] = i ∧ romPi[piSrc[i]] = i) ∧
  (∀ i : Fin 25, romPi[i] = i → i = 0)

/-! ## The permutation -/

/-- Derived from R6, R56: bit `k` of `a` becomes bit `(k + n) mod 64` of `rotl64(a, n)`; a rotation by 0 is the identity. -/
def Obligations.RotationMovesEveryBit : Prop :=
  (∀ a : Lane, rotl64 a 0 = a) ∧
  (∀ (a : Lane) (n k : Nat), n < 64 → k < 64 → (rotl64 a n).getLsbD ((k + n) % 64) = a.getLsbD k)

/-- R60: THETA by column and row. -/
def Obligations.ThetaMixesTwoColumnParities : Prop :=
  ∀ (A : Lanes) (C : Nat → Lane),
    (∀ (x : Nat) (h : x < 5), C x = A[x] ^^^ A[x + 5] ^^^ A[x + 10] ^^^ A[x + 15] ^^^ A[x + 20]) →
    ∀ (x y : Nat) (hx : x < 5) (hy : y < 5),
      (theta A)[x + 5 * y] = A[x + 5 * y] ^^^ (C ((x + 4) % 5) ^^^ rotl64 (C ((x + 1) % 5)) 1)

/-- R61: RHO rotates lane `i` left by `ROM_RHO[i]`, which is less than 64, so its bit `k` moves to bit `k + ROM_RHO[i]` modulo 64;
lane 0 is unchanged. -/
def Obligations.RhoRotatesEachLane : Prop :=
  (∀ (A : Lanes) (i : Nat) (h : i < 25), romRho[i] < 64 ∧ (rho A)[i] = rotl64 A[i] romRho[i] ∧
    ∀ k, k < 64 → (rho A)[i].getLsbD ((k + romRho[i]) % 64) = A[i].getLsbD k) ∧
  (∀ A : Lanes, (rho A)[0] = A[0])

/-- R62: PI moves the lane at `(x, y)` to `(y, 2x + 3y mod 5)`. -/
def Obligations.PiMovesEachLane : Prop :=
  (∀ (A : Lanes) (x y : Nat) (hx : x < 5) (hy : y < 5),
    (piStep A)[y + 5 * ((2 * x + 3 * y) % 5)]'(by omega) = A[x + 5 * y]) ∧
  (∀ (A : Lanes) (i : Fin 25), (piStep A)[romPi[i]] = A[i])

/-- R63: CHI row by row. -/
def Obligations.ChiCombinesARow : Prop :=
  ∀ (A : Lanes) (x y : Nat) (hx : x < 5) (hy : y < 5),
    (chi A)[x + 5 * y] =
      A[x + 5 * y] ^^^ (~~~A[(x + 1) % 5 + 5 * y]'(by omega) &&& A[(x + 2) % 5 + 5 * y]'(by omega))

/-- R64: IOTA changes lane 0 only. -/
def Obligations.IotaChangesLaneZeroOnly : Prop :=
  ∀ (A : Lanes) (ir : Nat) (h : ir < 24),
    (iota A ir)[0] = A[0] ^^^ romRc[ir] ∧ ∀ (i : Nat) (hi : i < 25), 0 < i → (iota A ir)[i] = A[i]

/-- R65: a round is theta, rho, pi, chi, iota; from zero lanes only the round constant remains. -/
def Obligations.RoundFromZeroIsTheConstant : Prop :=
  (∀ (A : Lanes) (ir : Nat), keccakRound A ir = iota (chi (piStep (rho (theta A)))) ir) ∧
  (∀ (ir : Nat) (h : ir < 24),
    (keccakRound (Vector.replicate 25 0) ir)[0] = romRc[ir] ∧
    ∀ (i : Nat) (hi : i < 25), 0 < i → (keccakRound (Vector.replicate 25 0) ir)[i] = 0)

/-- R66: PERMUTE is rounds 0 to 23 in ascending order, and a bijection on the 1600-bit states; three lanes of PERMUTE of the zero
state, which are not zero. -/
def Obligations.PermuteIsTwentyFourRoundsAndABijection : Prop :=
  (∀ A : Lanes, permute A = (List.range 24).foldl keccakRound A) ∧ Function.Bijective permute ∧
  (permute (Vector.replicate 25 0))[0] = 0xF1258F7940E1DDE7#64 ∧
  (permute (Vector.replicate 25 0))[1] = 0x84D5CCF933C0478A#64 ∧
  (permute (Vector.replicate 25 0))[24] = 0xEAF1FF7B5CECA249#64

/-- Derived from R67, R20, R18: whatever ROUNDS_PER_CYCLE, over edges with quiet pins (no reset, no command presented, no response
taken), RND never leaves 0..23 and the lanes at the end of PERM are PERMUTE of the lanes at its start. Two clauses are the model's
choice (log 11): that PERM takes exactly `24 / ROUNDS_PER_CYCLE` edges (R67 lets a round be pipelined, R110 lets an engine take more
or fewer clocks), and that for `FINAL 0` the phase after PERM is RESPOND, SQZ skipped (R18's table shows SQZ for every FINAL). -/
def Obligations.PermPhaseRunsThePermutation : Prop :=
  ∀ (s : State) (j : Job), s.phase = .perm → s.rnd = 0 → s.job = some j → j.hasBlock = true → s.offered = none →
    (∃ t, runEdges (List.replicate (24 / s.params.roundsPerCycle.count) Pins.quiet) s = .next t ∧
      t.lanes = permute s.lanes ∧ t.rnd = 0 ∧ t.phase = phaseAfterPerm j ∧ t.rq = s.rq ∧ t.job = s.job ∧
      t.buf = s.buf ∧ t.cnt = s.cnt ∧ t.mode = s.mode ∧ t.fin = s.fin) ∧
    (∀ k, k < 24 / s.params.roundsPerCycle.count →
      ∃ t, runEdges (List.replicate k Pins.quiet) s = .next t ∧ t.phase = .perm ∧
        t.rnd = k * s.params.roundsPerCycle.count ∧ t.rnd < 24)

/-! ## The sponge's internal operations -/

/-- R30: byte `k` of the state is byte `k mod 8` of lane `k div 8`, least significant first; a read of several is in that order; a
write of lane `j` changes exactly bytes `8j .. 8j+7`. -/
def Obligations.ByteViewReadsTheLanes : Prop :=
  (∀ (A : Lanes) (k : Nat) (h : k < 200), stByte A k = (A[k / 8]'(by omega)).extractLsb' (8 * (k % 8)) 8) ∧
  (∀ (A : Lanes) (a n i : Nat), i < n → (stRead A a n).length = n ∧ (stRead A a n)[i]? = some (stByte A (a + i))) ∧
  (∀ (A : Lanes) (j k : Nat) (v : Lane) (hj : j < 25), k < 200 →
    stByte (A.set j v) k = if k / 8 = j then v.extractLsb' (8 * (k % 8)) 8 else stByte A k)

/-- R70, R31: XORBLOCK lane by lane and byte by byte; lanes `r/8 .. 24` are not written. -/
def Obligations.XorBlockChangesTheRateBytesOnly : Prop :=
  ∀ (m : Preset) (blk : List Byte) (A : Lanes), blk.length = rate m →
    (∀ j, j < rate m / 8 →
      laneOf blk j = ((List.range 8).map fun t => (blk.getD (8 * j + t) 0).setWidth 64 <<< (8 * t)).sum) ∧
    (∀ (i : Nat) (h : i < 25),
      (xorBlock (rate m / 8) blk A)[i] = if i < rate m / 8 then A[i] ^^^ laneOf blk i else A[i]) ∧
    (∀ k, k < 200 → stByte (xorBlock (rate m / 8) blk A) k =
      if k < rate m then stByte A k ^^^ blk.getD k 0 else stByte A k)

/-- R71: the padded block byte by byte, under both rules; it is one block, the pad always fits. -/
def Obligations.PadBlockFitsInOneBlock : Prop :=
  ∀ s : State, s.cnt < rate s.mode →
    ∃ blk, padBlock s = some blk ∧ blk.length = rate s.mode ∧
      ∀ k, k < rate s.mode → blk[k]? = some
        (match s.params.padRule with
        | .lone80 => if k < s.cnt then bufRead s k else if k = s.cnt then 0x80#8 else 0x00#8
        | .pad10star1 => (if k < s.cnt then bufRead s k else 0x00#8) ^^^ (if k = s.cnt then 0x01#8 else 0x00#8) ^^^
            (if k = rate s.mode - 1 then 0x80#8 else 0x00#8))

/-- Derived from R72, R30, R79: SQUEEZE is DATA words of the bytes of lanes 0, 1, 2, … least significant first; only lanes 0 to 7
can reach the output. -/
def Obligations.SqueezeEmitsLowLanesLittleEndian : Prop :=
  (∀ (A : Lanes) (size : Nat), size ≤ 64 → (squeeze A size).map Rsp.word =
    (List.range size).map fun k => 0x2000#16 ||| ((A[k / 8]?.getD 0 >>> (8 * (k % 8))).setWidth 8).setWidth 16) ∧
  (∀ (A B : Lanes) (m : Preset) (size : Nat), size ≤ m.digestSize → (∀ (i : Nat) (h : i < 8), A[i] = B[i]) →
    squeeze A size = squeeze B size)

/-! ## The commands -/

/-- R73: RESET. Everything it does not name is unchanged, MODE and the words in RQ among it. -/
def Obligations.ResetClearsTheMessage : Prop :=
  ∀ s : State, exec .reset s =
    .next { s with lanes := Vector.replicate 25 0, buf := [], cnt := 0, fin := false, rq := s.rq ++ [0x1000#16] }

/-- R81: INIT writes MODE, then is RESET; in the mode in force it is exactly RESET; no other command changes MODE. -/
def Obligations.InitWritesModeThenClears : Prop :=
  (∀ (m : Preset) (s : State), exec (.init m) s =
    .next { s with mode := m, lanes := Vector.replicate 25 0, buf := [], cnt := 0, fin := false,
                   rq := s.rq ++ [0x1000#16] }) ∧
  (∀ s : State, exec (.init s.mode) s = exec .reset s) ∧
  (∀ (i : Instr) (s t : State), exec i s = .next t → t.mode ≠ s.mode → ∃ m, i = .init m)

/-- R82, R83: QDSZ answers `d`, QRATE answers `r`, in every state; nothing else changes. -/
def Obligations.AccessorsAnswerSizes : Prop :=
  ∀ s : State,
    exec .qdsz s = .next { s with rq := s.rq ++
      [match s.mode with | .p224 => 0x401C#16 | .p256 => 0x4020#16 | .p384 => 0x4030#16 | .p512 => 0x4040#16] } ∧
    exec .qrate s = .next { s with rq := s.rq ++
      [match s.mode with | .p224 => 0x4090#16 | .p256 => 0x4088#16 | .p384 => 0x4068#16 | .p512 => 0x4048#16] }

/-- R74: ABSORB. With FIN = 1 it answers Consumed; below the block boundary it writes BUF[CNT] only; the ABSORB that delivers the
`r`-th byte XORs the block in and permutes. -/
def Obligations.AbsorbStoresOneByteOrEndsABlock : Prop :=
  ∀ (data : Byte) (s : State), Memory.wf s.buf → s.cnt < rate s.mode →
    (s.fin = true → exec (.absorb data) s = .next { s with rq := s.rq ++ [0xF003#16] }) ∧
    (s.fin = false → s.cnt + 1 < rate s.mode →
      exec (.absorb data) s =
        .next { s with buf := s.buf.write s.cnt data, cnt := s.cnt + 1, rq := s.rq ++ [0x1000#16] } ∧
      ∀ k, (s.buf.write s.cnt data).read k = if k = s.cnt then data else s.buf.read k) ∧
    (s.fin = false → s.cnt + 1 = rate s.mode →
      exec (.absorb data) s =
        .next { s with
          lanes := permute (xorBlock (rate s.mode / 8) ((List.range s.cnt).map (s.buf.read) ++ [data]) s.lanes),
          buf := [], cnt := 0, rq := s.rq ++ [0x1000#16] })

/-- R75: FINAL. InvalidArgument first, then Consumed, nothing changed by either; else pad, XOR, permute once, squeeze, CNT 0,
FIN 1, DONE. -/
def Obligations.FinalPadsPermutesAndSqueezes : Prop :=
  ∀ (size : Byte) (s : State), s.cnt < rate s.mode →
    (s.mode.digestSize < size.toNat → exec (.final size) s = .next { s with rq := s.rq ++ [0xF001#16] }) ∧
    (size.toNat ≤ s.mode.digestSize → s.fin = true →
      exec (.final size) s = .next { s with rq := s.rq ++ [0xF003#16] }) ∧
    (size.toNat ≤ s.mode.digestSize → s.fin = false →
      ∃ A : Lanes,
        A = permute (xorBlock (rate s.mode / 8)
              (padTail s.params.padRule (rate s.mode) ((List.range s.cnt).map (s.buf.read))) s.lanes) ∧
        exec (.final size) s =
          .next { s with lanes := A, buf := [], cnt := 0, fin := true,
                         rq := s.rq ++ (List.range size.toNat).map (fun k => 0x2000#16 ||| (stByte A k).setWidth 16) ++
                           [0x3000#16 ||| size.setWidth 16] })

/-- R86: `FINAL size` answers the single word 0xF001 exactly when `size > d`, `d` = 28, 32, 48, 64. -/
def Obligations.InvalidArgumentExactlyAboveDigestSize : Prop :=
  ∀ (size : Byte) (s : State),
    exec (.final size) s = .next { s with rq := s.rq ++ [0xF001#16] } ↔
      (match s.mode with | .p224 => 28 | .p256 => 32 | .p384 => 48 | .p512 => 64) < size.toNat

/-- R88: Consumed. With FIN = 1, ABSORB and FINAL of a legal size answer the single word 0xF003; RESET, INIT, QDSZ and QRATE never
do. -/
def Obligations.ConsumedUntilResetOrInit : Prop :=
  (∀ (s : State) (data : Byte), s.fin = true → exec (.absorb data) s = .next { s with rq := s.rq ++ [0xF003#16] }) ∧
  (∀ (s : State) (size : Byte), s.fin = true → size.toNat ≤ s.mode.digestSize →
    exec (.final size) s = .next { s with rq := s.rq ++ [0xF003#16] }) ∧
  (∀ (i : Instr) (s t : State), exec i s = .next t → s.fin = false → t.rq ≠ s.rq ++ [0xF003#16]) ∧
  (∀ (m : Preset) (s t : State),
    exec .reset s = .next t ∨ exec (.init m) s = .next t ∨ exec .qdsz s = .next t ∨ exec .qrate s = .next t →
    t.rq ≠ s.rq ++ [0xF003#16])

/-- Derived from R90, R92: a word that raises an error, by the priority IllegalCommand, InvalidArgument, Consumed, appends one ERR
word and changes nothing else; at pin level the sequencer is back in IDLE, as if the word had never been sent (that it is so exactly
one edge after acceptance is the model's choice, log 11: R110 lets an engine take more or fewer clocks); a word that raises none
does not answer an ERR word. -/
def Obligations.ErrorEntryChangesNothing : Prop :=
  (∀ (w : Word) (s : State) (c : Cause), wordError w s = some c →
    sendWord w s = .next { s with rq := s.rq ++ [0xF000#16 ||| c.code.setWidth 16] }) ∧
  (∀ (w : Word) (s : State) (c : Cause), wordError w s = some c → AtBoundary s → s.rq.length < s.params.rspDepth →
    runEdges [Pins.offer w, Pins.quiet] s = .next { s with rq := s.rq ++ [0xF000#16 ||| c.code.setWidth 16] }) ∧
  (∀ (w : Word) (s : State), wordError w s = none → s.cnt < rate s.mode →
    ∃ (t : State) (rs : List Rsp), sendWord w s = .next t ∧ t.rq = s.rq ++ rs.map Rsp.word ∧
      ∀ c, Rsp.err c ∉ rs)

/-- Derived from R91: the same failing word fails again with the same cause; after InvalidArgument a FINAL of a legal size answers
what it would have answered at once. -/
def Obligations.FailingCommandFailsAgain : Prop :=
  (∀ (w : Word) (s t : State) (c : Cause), wordError w s = some c → sendWord w s = .next t → wordError w t = some c) ∧
  (∀ (bad size : Byte) (s t u : State), s.mode.digestSize < bad.toNat →
    exec (.final bad) s = .next t → exec (.final size) s = .next u →
    exec (.final size) t = .next { u with rq := s.rq ++ [0xF001#16] ++ u.rq.drop s.rq.length })

/-- Derived from R89: the commands that cannot fail. -/
def Obligations.CommandsThatNeverFail : Prop :=
  ∀ (i : Instr) (s : State),
    (i = .reset ∨ (∃ m, i = .init m) ∨ i = .qdsz ∨ i = .qrate ∨ ((∃ d, i = .absorb d) ∧ s.fin = false ∧ s.cnt < rate s.mode)) →
    ∃ (t : State) (r : Rsp), exec i s = .next t ∧ t.rq = s.rq ++ [r.word] ∧ r.isCompletion = true ∧ ∀ c, r ≠ .err c

/-- Derived from R51: every accepted command produces exactly one completion word, its last; only a successful FINAL emits anything before it:
`size` DATA words. -/
def Obligations.OneCompletionWordPerCommand : Prop :=
  ∀ (w : Word) (s : State), s.cnt < rate s.mode →
    ∃ (t : State) (bytes : List Byte) (r : Rsp), sendWord w s = .next t ∧
      t.rq = s.rq ++ bytes.map (fun b => (Rsp.data b).word) ++ [r.word] ∧ r.isCompletion = true ∧
      (bytes.length = match decode w with
        | .ok (.final size) => if wordError w s = none then size.toNat else 0
        | .ok _ => 0
        | .error _ => 0)

/-- Derived from R12, R25, R36: what a command leaves unchanged. The sequencer is back where it was, RQ only grows at its end, and
MODE, FIN, the lanes and BUF change only by the commands the rules name. -/
def Obligations.CommandFrame : Prop :=
  ∀ (i : Instr) (s t : State), exec i s = .next t →
    t.phase = s.phase ∧ t.rnd = s.rnd ∧ t.sqi = s.sqi ∧ t.job = s.job ∧ t.params = s.params ∧
    t.offered = s.offered ∧ t.inbox = s.inbox ∧ t.taken = s.taken ∧ s.rq <+: t.rq ∧ s.rq ≠ t.rq ∧
    ((∀ m, i ≠ .init m) → t.mode = s.mode) ∧
    (t.fin ≠ s.fin → i = .reset ∨ (∃ m, i = .init m) ∨ ∃ size, i = .final size ∧ t.fin = true) ∧
    (i = .qdsz ∨ i = .qrate → t.lanes = s.lanes ∧ t.cnt = s.cnt ∧ ∀ k, bufRead t k = bufRead s k) ∧
    (∀ d, i = .absorb d → s.cnt + 1 ≠ rate s.mode → t.lanes = s.lanes) ∧
    (∀ d, i = .absorb d → s.buf.wf → s.cnt + 1 ≠ rate s.mode → ∀ k, k ≠ s.cnt → bufRead t k = bufRead s k)

/-- The model's choice (log 6, for states no run reaches; R14 and R71 give a meaning only to `CNT <= r - 1`): a command stops only
so, and none is refused. -/
def Obligations.CommandsStopOnlyOnAnOverfullBuffer : Prop :=
  (∀ (i : Instr) (s : State) (f : Fault), exec i s = .fault f ↔
    (f = .fillBeyondRate ∧ rate s.mode ≤ s.cnt ∧ s.fin = false ∧
      ((∃ d, i = .absorb d) ∨ ∃ size, i = .final size ∧ size.toNat ≤ s.mode.digestSize))) ∧
  (∀ (i : Instr) (s : State) (r : Refusal), exec i s ≠ .refused r)

/-! ## Steps -/

/-- Derived from R36, R44, R48, R103: in IDLE a sent word runs as the command it decodes to, or answers IllegalCommand; while the
engine is busy it waits on the port for one clock edge, still to come (the model's choice, log 12). -/
def Obligations.StepRunsTheDecodedCommand : Prop :=
  ∀ (w : Word) (rest : List HostMove) (s : State), s.inbox = .send w :: rest →
    (s.phase = .idle → (s.offered = none ∨ s.offered = some w) →
      (∀ i, decode w = .ok i → step s = exec i { s with inbox := rest, offered := none }) ∧
      (∀ e, decode w = .error e →
        step s = .next { s with inbox := rest, offered := none, rq := s.rq ++ [0xF002#16] })) ∧
    (s.phase ≠ .idle → step s = clockEdge ⟨false, .p224, true, w, false⟩ s)

/-- Derived from R44: *take* removes the head of RQ exactly once and changes nothing else of the engine; with RQ empty nothing is
taken (the model's choice, log 13). -/
def Obligations.TakeRemovesTheHead : Prop :=
  ∀ (rest : List HostMove) (s : State), s.inbox = .take :: rest →
    (∀ w ws, s.rq = w :: ws → step s = .next { s with inbox := rest, rq := ws, taken := s.taken ++ [w] }) ∧
    (s.rq = [] → step s = .next { s with inbox := rest })

/-- Derived from R99: an idle engine with no command presented and nothing to do holds all its state. -/
def Obligations.IdleEngineHoldsItsState : Prop :=
  ∀ (s : State) (p : Pins), s.phase = .idle → s.offered = none →
    (s.inbox = [] → step s = .next s) ∧
    (p.rst = false → p.cmdValid = false → p.rspReady = false → clockEdge p s = .next s)

/-- R100, R101: hardware reset, as a clock edge with `rst = 1` or as a host move, in any state and phase. -/
def Obligations.HardwareResetFromAnyState : Prop :=
  ∀ (s : State) (p : Pins), p.rst = true →
    (∃ t, clockEdge p s = .next t ∧ t.lanes = Vector.replicate 25 0 ∧ t.cnt = 0 ∧ t.buf = [] ∧ t.fin = false ∧
      t.mode = p.cfgMode ∧ t.phase = .idle ∧ t.rnd = 0 ∧ t.sqi = 0 ∧ t.rq = [] ∧ t.job = none ∧
      t.taken = s.taken ∧ t.params = s.params ∧ t.inbox = s.inbox) ∧
    cmdReady p s = false ∧ rspValid p s = false ∧
    (∀ (m : Preset) (rest : List HostMove), s.inbox = .hwReset m :: rest →
      step s = .next { State.resetOf s.params m with inbox := rest, taken := s.taken })

/-- Derived from R15, R25: MODE is written only by hardware reset and INIT, and the parameters of R4 never. At pin level INIT writes
MODE at its accepting edge and at no later one: which edge it is is the model's choice (log 11). -/
def Obligations.OnlyInitAndHardwareResetWriteMode : Prop :=
  ∀ s t : State, step s = .next t →
    t.params = s.params ∧
    (t.mode = s.mode ∨
      (∃ m rest, s.inbox = .hwReset m :: rest ∧ t.mode = m) ∨
      (∃ p rest, s.inbox = .edge p :: rest ∧ p.rst = true ∧ t.mode = p.cfgMode) ∨
      (∃ p rest m, s.inbox = .edge p :: rest ∧ s.phase = .idle ∧ p.cmdValid = true ∧ decode p.cmd = .ok (.init m) ∧
        t.mode = m) ∨
      (∃ w rest m, s.inbox = .send w :: rest ∧ s.phase = .idle ∧ decode w = .ok (.init m) ∧ t.mode = m))

/-- Derived from R16, R25: FIN rises only by a successful FINAL, and falls only by RESET, INIT or hardware reset. At pin level FIN
rises at the RESPOND edge that emits DONE, and falls at the accepting edge of RESET or INIT: which edges they are is the model's
choice (log 11). -/
def Obligations.FinRisesOnlyByASuccessfulFinal : Prop :=
  ∀ s t : State, step s = .next t →
    (s.fin = false → t.fin = true →
      (∃ w rest size, s.inbox = .send w :: rest ∧ s.phase = .idle ∧ decode w = .ok (.final size) ∧
        size.toNat ≤ s.mode.digestSize ∧ t.rq.getLast? = some (Rsp.done size).word) ∨
      (∃ size, s.phase = .respond ∧ s.job = some (.digest size) ∧ t.rq.getLast? = some (Rsp.done size).word)) ∧
    (s.fin = true → t.fin = false →
      (∃ m rest, s.inbox = .hwReset m :: rest) ∨
      (∃ p rest, s.inbox = .edge p :: rest ∧ p.rst = true) ∨
      (∃ w rest, (s.inbox = .send w :: rest ∨ ∃ p, s.inbox = .edge p :: rest ∧ p.cmdValid = true ∧ p.cmd = w) ∧
        s.phase = .idle ∧ (decode w = .ok .reset ∨ ∃ m, decode w = .ok (.init m))))

/-! ## The invariant -/

/-- Derived from R27 and R26: the reset state meets the invariant, whatever MODE_RESET and the parameters. -/
def Obligations.ResetStateMeetsTheInvariant : Prop :=
  (∀ (p : Params) (m : Preset), 0 < p.rspDepth → EngineInv (State.resetOf p m)) ∧ EngineInv State.reset

/-- Every step keeps the invariant, from every state that meets it: BUF canonical and empty beyond CNT, CNT, FIN, RND and SQI in
their ranges by phase (R14, R20, R21, R26), only response words in RQ (R50). -/
def Obligations.StepKeepsTheInvariant : Prop :=
  ∀ s t : State, EngineInv s → step s = .next t → EngineInv t

/-- From every state that meets the invariant a step answers a next state; the one refusal is of a host that does not hold the
word it presented (R8, R48, R89, R107). -/
def Obligations.InvariantStatesNeverFault : Prop :=
  ∀ s : State, EngineInv s →
    Safe s ∨
    (step s = .refused .handshakeBroken ∧ ∃ w, s.offered = some w ∧
      ((s.inbox = []) ∨ (∃ w' rest, s.inbox = .send w' :: rest ∧ w' ≠ w) ∨
        ∃ p rest, s.inbox = .edge p :: rest ∧ p.rst = false ∧ (p.cmdValid = false ∨ p.cmd ≠ w)))

/-! ## Pin level -/

/-- Derived from R36, R44, R67, R104: one clock edge without reset, seen at command level. An accepting edge is exactly one command
executed atomically; any other edge changes nothing the host can tell apart at the end. -/
def Obligations.ClockEdgeRefinesOneCommand : Prop :=
  ∀ (p : Pins) (s t : State), EngineInv s → p.rst = false → clockEdge p s = .next t →
    (cmdReady p s = true → p.cmdValid = true → ∃ u, sendWord p.cmd s = .next u ∧ observe (settle t) = observe u) ∧
    (¬(cmdReady p s = true ∧ p.cmdValid = true) → observe (settle t) = observe (settle s))

/-- Derived from R36, R104, R109: any run of clock edges without reset, from a command boundary, whatever the host's timing and
whatever ROUNDS_PER_CYCLE and RSP_DEPTH, ends in what the accepted words give when executed atomically one after another. -/
def Obligations.PinRunRefinesCommandRun : Prop :=
  ∀ (ps : List Pins) (s t : State), EngineInv s → s.phase = .idle → (∀ p ∈ ps, p.rst = false) → runEdges ps s = .next t →
    ∃ u, sendAll (acceptedWords ps s) s = .next u ∧ observe (settle t) = observe u

/-- Derived from R110 (indicative timing; the edges are the model's choice, log 11): with the host taking every response, for every
`RSP_DEPTH`, a command accepted at an edge has completed after the clocks of R110's table, not earlier, and the host
then sees what the atomic command gives. That this holds with RQ full at acceptance, and with one DATA word an edge at
`RSP_DEPTH = 1`, is the model's choice too (log 10): an entry taken at an edge is free for a word emitted at the same edge. -/
def Obligations.CommandTakesTheTabledClocks : Prop :=
  ∀ (i : Instr) (s : State), EngineInv s → AtBoundary s → s.rq.length ≤ s.params.rspDepth →
    (∃ t u, runEdges (Pins.offer (encode i) :: List.replicate (commandClocks i s) Pins.drain) s = .next t ∧
      exec i s = .next u ∧ t.phase = .idle ∧ observe t = observe u) ∧
    ∀ k, k < commandClocks i s →
      ∃ t, runEdges (Pins.offer (encode i) :: List.replicate k Pins.drain) s = .next t ∧ t.phase ≠ .idle

/-- Derived from R22, R44, R104: RQ is first-in first-out. An edge without reset keeps every word in its place in the order taken
then queued, and adds new words only at the end; `rsp` does not change before its word is taken. That an edge adds at most one word is
the model's choice (log 11: SQZ takes one edge a DATA word, RESPOND one edge; R110 lets an engine take fewer clocks). -/
def Obligations.ResponseQueueKeepsOrder : Prop :=
  ∀ (p : Pins) (s t : State), p.rst = false → clockEdge p s = .next t →
    ∃ new : List Rsp, new.length ≤ 1 ∧ t.taken ++ t.rq = s.taken ++ s.rq ++ new.map Rsp.word ∧
      (p.rspReady = true → s.rq ≠ [] → t.taken = s.taken ++ s.rq.take 1) ∧
      (p.rspReady = false ∨ s.rq = [] → t.taken = s.taken) ∧
      (p.rspReady = false → s.rq ≠ [] → rspWord t = rspWord s) ∧
      (t.rq.length ≤ max s.rq.length s.params.rspDepth)

/-- Derived from R104: with RQ full and the host not taking, an engine that has a word to emit holds its phase and every register. -/
def Obligations.FullQueueStallsTheEngine : Prop :=
  ∀ (p : Pins) (s : State), EngineInv s → (s.phase = .sqz ∨ s.phase = .respond) → s.params.rspDepth ≤ s.rq.length →
    p.rst = false → p.rspReady = false → (s.offered = none ∨ p.presented = s.offered) →
    clockEdge p s = .next { s with offered := p.presented } ∧ cmdReady p s = false

/-- Derived from R39, R43, R103: while the engine is busy, what is on the command port changes nothing but the word the host must
hold. -/
def Obligations.BusyEngineIgnoresTheCommandPort : Prop :=
  ∀ (p : Pins) (v : Bool) (w : Word) (s t : State), s.phase ≠ .idle → s.offered = none → p.rst = false →
    cmdReady p s = false ∧
    (clockEdge p s = .next t →
      clockEdge { p with cmdValid := v, cmd := w } s = .next { t with offered := if v = true then some w else none })

/-- Derived from R108: the phases do not depend on message data. Two states that agree on everything but the lanes, the bytes of BUF and the
words in the queues (as many of each), at an edge with the same pins or with two ABSORB words of different data, agree
after it on the phase, the counters, MODE, FIN, the command in progress and the number of words in RQ. -/
def Obligations.PhasesIgnoreMessageData : Prop :=
  ∀ (p q : Pins) (s t s' : State),
    s.cnt = t.cnt → s.mode = t.mode → s.fin = t.fin → s.phase = t.phase → s.rnd = t.rnd → s.sqi = t.sqi →
    s.rq.length = t.rq.length → s.job = t.job → s.params = t.params → s.offered = none → t.offered = none →
    p.rst = q.rst → p.cfgMode = q.cfgMode → p.cmdValid = q.cmdValid → p.rspReady = q.rspReady →
    (p.cmd = q.cmd ∨ ∃ a b, decode p.cmd = .ok (.absorb a) ∧ decode q.cmd = .ok (.absorb b)) →
    clockEdge p s = .next s' →
    ∃ t', clockEdge q t = .next t' ∧ s'.cnt = t'.cnt ∧ s'.mode = t'.mode ∧ s'.fin = t'.fin ∧ s'.phase = t'.phase ∧
      s'.rnd = t'.rnd ∧ s'.sqi = t'.sqi ∧ s'.rq.length = t'.rq.length ∧ s'.job = t'.job

/-- Derived from R107, U11: the only refusals are of a host that changes or drops the word it presented before it is accepted. -/
def Obligations.OnlyABrokenHandshakeIsRefused : Prop :=
  ∀ (p : Pins) (s : State) (r : Refusal),
    clockEdge p s = .refused r ↔
      (r = .handshakeBroken ∧ p.rst = false ∧ ∃ w, s.offered = some w ∧ ¬(p.cmdValid = true ∧ p.cmd = w))

/-! ## The function computed -/

/-- Derived from R26: after a message's ABSORB commands, each answered ACK, CNT is `len(M) mod r`, BUF holds the last CNT bytes, the lanes are
the complete blocks absorbed in order from zero lanes, FIN is 0. -/
def Obligations.BoundaryStateAfterAMessage : Prop :=
  ∀ (msg : List Byte) (s : State), Fresh s →
    ∃ t, runCommands (msg.map Instr.absorb) s = .next t ∧
      t.cnt = msg.length % rate s.mode ∧ bufBytes t = messageTail s.mode msg ∧ t.lanes = messageLanes s.mode msg ∧
      t.fin = false ∧ t.mode = s.mode ∧ t.rq = s.rq ++ List.replicate msg.length 0x1000#16

/-- R76: the function computed. RESET, INIT and hardware reset start a fresh message; a fresh message and a FINAL of a legal size answer the first `size` bytes of the sponge of the
message, whatever the preset and PAD_RULE. -/
def Obligations.EngineComputesTheSponge : Prop :=
  (∀ s t : State, exec .reset s = .next t → Fresh t ∧ t.mode = s.mode) ∧
  (∀ (m : Preset) (s t : State), exec (.init m) s = .next t → Fresh t ∧ t.mode = m) ∧
  (∀ (p : Params) (m : Preset), Fresh (State.resetOf p m) ∧ (State.resetOf p m).mode = m) ∧
  (∀ (msg : List Byte) (size : Byte) (s : State), Fresh s → size.toNat ≤ s.mode.digestSize →
    ∃ t, runCommands (msg.map Instr.absorb ++ [.final size]) s = .next t ∧
      t.rq = s.rq ++ List.replicate msg.length 0x1000#16 ++
        (spongeDigest s.params.padRule s.mode msg size.toNat).map (fun b => 0x2000#16 ||| b.setWidth 16) ++
        [0x3000#16 ||| size.setWidth 16] ∧
      t.lanes = digestLanes s.params.padRule s.mode msg ∧ t.fin = true ∧ t.cnt = 0 ∧ t.mode = s.mode)

/-- Derived from R77: QDSZ and QRATE anywhere among the commands change nothing but RQ, to which each adds its VAL word. -/
def Obligations.QueriesDoNotDisturbTheMessage : Prop :=
  ∀ (cmds : List Instr) (s t : State), runCommands cmds s = .next t →
    ∃ u, runCommands (cmds.filter fun i => decide (i ≠ .qdsz ∧ i ≠ .qrate)) s = .next u ∧ t = { u with rq := t.rq } ∧
      u.rq.Sublist t.rq

/-- Derived from R78: determinism and the prefix property. From one state, FINAL of the smaller size emits the first bytes FINAL of the larger
emits, and leaves the same lanes. -/
def Obligations.TruncatedDigestIsAPrefix : Prop :=
  ∀ (s t u : State) (size₁ size₂ : Byte), size₁.toNat < size₂.toNat → size₂.toNat ≤ s.mode.digestSize → s.fin = false →
    exec (.final size₁) s = .next t → exec (.final size₂) s = .next u →
    t.lanes = u.lanes ∧
    ∃ bs₁ bs₂ : List Byte, bs₁ = bs₂.take size₁.toNat ∧ bs₂.length = size₂.toNat ∧
      t.rq = s.rq ++ bs₁.map (fun b => 0x2000#16 ||| b.setWidth 16) ++ [0x3000#16 ||| size₁.setWidth 16] ∧
      u.rq = s.rq ++ bs₂.map (fun b => 0x2000#16 ||| b.setWidth 16) ++ [0x3000#16 ||| size₂.setWidth 16]

/-- Derived from R69, R76, R78, R105: a message hashed after RESET, INIT or hardware reset gives the same answers whatever the
engine did before. -/
def Obligations.DigestDependsOnTheMessageAlone : Prop :=
  ∀ (m : Preset) (msg : List Byte) (size : Byte) (s s' : State), size.toNat ≤ m.digestSize →
    s.params = s'.params → s.rq = s'.rq →
    ∃ t t', runCommands (.init m :: msg.map Instr.absorb ++ [.final size]) s = .next t ∧
      runCommands (.init m :: msg.map Instr.absorb ++ [.final size]) s' = .next t' ∧
      t.rq = t'.rq ∧ t.lanes = t'.lanes ∧ t.fin = t'.fin ∧ t.cnt = t'.cnt
end

