-- ==== Sys2Proof/Laws/State.lean ====
section
/-! SUPPORT. One lemma per field per update of State, true by rfl, so that no later proof unfolds a record update; and the
one-line facts of taking a response. -/

namespace Sys2Proof.Machine

variable (s : State)

/-! ### `CNT <- 0` -/

@[simp] theorem bufEmpty_lanes : (bufEmpty s).lanes = s.lanes := rfl
@[simp] theorem bufEmpty_buf : (bufEmpty s).buf = [] := rfl
@[simp] theorem bufEmpty_cnt : (bufEmpty s).cnt = 0 := rfl
@[simp] theorem bufEmpty_mode : (bufEmpty s).mode = s.mode := rfl
@[simp] theorem bufEmpty_fin : (bufEmpty s).fin = s.fin := rfl
@[simp] theorem bufEmpty_phase : (bufEmpty s).phase = s.phase := rfl
@[simp] theorem bufEmpty_rnd : (bufEmpty s).rnd = s.rnd := rfl
@[simp] theorem bufEmpty_sqi : (bufEmpty s).sqi = s.sqi := rfl
@[simp] theorem bufEmpty_rq : (bufEmpty s).rq = s.rq := rfl
@[simp] theorem bufEmpty_job : (bufEmpty s).job = s.job := rfl
@[simp] theorem bufEmpty_params : (bufEmpty s).params = s.params := rfl
@[simp] theorem bufEmpty_offered : (bufEmpty s).offered = s.offered := rfl
@[simp] theorem bufEmpty_inbox : (bufEmpty s).inbox = s.inbox := rfl
@[simp] theorem bufEmpty_taken : (bufEmpty s).taken = s.taken := rfl

/-! ### `FIN <- 1` -/

@[simp] theorem setFin_lanes : (setFin s).lanes = s.lanes := rfl
@[simp] theorem setFin_buf : (setFin s).buf = s.buf := rfl
@[simp] theorem setFin_cnt : (setFin s).cnt = s.cnt := rfl
@[simp] theorem setFin_mode : (setFin s).mode = s.mode := rfl
@[simp] theorem setFin_fin : (setFin s).fin = true := rfl
@[simp] theorem setFin_phase : (setFin s).phase = s.phase := rfl
@[simp] theorem setFin_rnd : (setFin s).rnd = s.rnd := rfl
@[simp] theorem setFin_sqi : (setFin s).sqi = s.sqi := rfl
@[simp] theorem setFin_rq : (setFin s).rq = s.rq := rfl
@[simp] theorem setFin_job : (setFin s).job = s.job := rfl
@[simp] theorem setFin_params : (setFin s).params = s.params := rfl
@[simp] theorem setFin_offered : (setFin s).offered = s.offered := rfl
@[simp] theorem setFin_inbox : (setFin s).inbox = s.inbox := rfl
@[simp] theorem setFin_taken : (setFin s).taken = s.taken := rfl

/-! ### one response -/

@[simp] theorem emit_lanes (r : Rsp) : (emit r s).lanes = s.lanes := rfl
@[simp] theorem emit_buf (r : Rsp) : (emit r s).buf = s.buf := rfl
@[simp] theorem emit_cnt (r : Rsp) : (emit r s).cnt = s.cnt := rfl
@[simp] theorem emit_mode (r : Rsp) : (emit r s).mode = s.mode := rfl
@[simp] theorem emit_fin (r : Rsp) : (emit r s).fin = s.fin := rfl
@[simp] theorem emit_phase (r : Rsp) : (emit r s).phase = s.phase := rfl
@[simp] theorem emit_rnd (r : Rsp) : (emit r s).rnd = s.rnd := rfl
@[simp] theorem emit_sqi (r : Rsp) : (emit r s).sqi = s.sqi := rfl
@[simp] theorem emit_rq (r : Rsp) : (emit r s).rq = s.rq ++ [r.word] := rfl
@[simp] theorem emit_job (r : Rsp) : (emit r s).job = s.job := rfl
@[simp] theorem emit_params (r : Rsp) : (emit r s).params = s.params := rfl
@[simp] theorem emit_offered (r : Rsp) : (emit r s).offered = s.offered := rfl
@[simp] theorem emit_inbox (r : Rsp) : (emit r s).inbox = s.inbox := rfl
@[simp] theorem emit_taken (r : Rsp) : (emit r s).taken = s.taken := rfl

/-! ### several responses -/

@[simp] theorem emitAll_lanes (rs : List Rsp) : (emitAll rs s).lanes = s.lanes := rfl
@[simp] theorem emitAll_buf (rs : List Rsp) : (emitAll rs s).buf = s.buf := rfl
@[simp] theorem emitAll_cnt (rs : List Rsp) : (emitAll rs s).cnt = s.cnt := rfl
@[simp] theorem emitAll_mode (rs : List Rsp) : (emitAll rs s).mode = s.mode := rfl
@[simp] theorem emitAll_fin (rs : List Rsp) : (emitAll rs s).fin = s.fin := rfl
@[simp] theorem emitAll_phase (rs : List Rsp) : (emitAll rs s).phase = s.phase := rfl
@[simp] theorem emitAll_rnd (rs : List Rsp) : (emitAll rs s).rnd = s.rnd := rfl
@[simp] theorem emitAll_sqi (rs : List Rsp) : (emitAll rs s).sqi = s.sqi := rfl
@[simp] theorem emitAll_rq (rs : List Rsp) : (emitAll rs s).rq = s.rq ++ rs.map Rsp.word := rfl
@[simp] theorem emitAll_job (rs : List Rsp) : (emitAll rs s).job = s.job := rfl
@[simp] theorem emitAll_params (rs : List Rsp) : (emitAll rs s).params = s.params := rfl
@[simp] theorem emitAll_offered (rs : List Rsp) : (emitAll rs s).offered = s.offered := rfl
@[simp] theorem emitAll_inbox (rs : List Rsp) : (emitAll rs s).inbox = s.inbox := rfl
@[simp] theorem emitAll_taken (rs : List Rsp) : (emitAll rs s).taken = s.taken := rfl

/-! ### a new message -/

@[simp] theorem clearMessage_lanes : (clearMessage s).lanes = zeroLanes := rfl
@[simp] theorem clearMessage_buf : (clearMessage s).buf = [] := rfl
@[simp] theorem clearMessage_cnt : (clearMessage s).cnt = 0 := rfl
@[simp] theorem clearMessage_mode : (clearMessage s).mode = s.mode := rfl
@[simp] theorem clearMessage_fin : (clearMessage s).fin = false := rfl
@[simp] theorem clearMessage_phase : (clearMessage s).phase = s.phase := rfl
@[simp] theorem clearMessage_rnd : (clearMessage s).rnd = s.rnd := rfl
@[simp] theorem clearMessage_sqi : (clearMessage s).sqi = s.sqi := rfl
@[simp] theorem clearMessage_rq : (clearMessage s).rq = s.rq := rfl
@[simp] theorem clearMessage_job : (clearMessage s).job = s.job := rfl
@[simp] theorem clearMessage_params : (clearMessage s).params = s.params := rfl
@[simp] theorem clearMessage_offered : (clearMessage s).offered = s.offered := rfl
@[simp] theorem clearMessage_inbox : (clearMessage s).inbox = s.inbox := rfl
@[simp] theorem clearMessage_taken : (clearMessage s).taken = s.taken := rfl

/-! ### hardware reset -/

@[simp] theorem hardwareReset_lanes (m : Preset) : (hardwareReset m s).lanes = zeroLanes := rfl
@[simp] theorem hardwareReset_buf (m : Preset) : (hardwareReset m s).buf = [] := rfl
@[simp] theorem hardwareReset_cnt (m : Preset) : (hardwareReset m s).cnt = 0 := rfl
@[simp] theorem hardwareReset_mode (m : Preset) : (hardwareReset m s).mode = m := rfl
@[simp] theorem hardwareReset_fin (m : Preset) : (hardwareReset m s).fin = false := rfl
@[simp] theorem hardwareReset_phase (m : Preset) : (hardwareReset m s).phase = .idle := rfl
@[simp] theorem hardwareReset_rnd (m : Preset) : (hardwareReset m s).rnd = 0 := rfl
@[simp] theorem hardwareReset_sqi (m : Preset) : (hardwareReset m s).sqi = 0 := rfl
@[simp] theorem hardwareReset_rq (m : Preset) : (hardwareReset m s).rq = [] := rfl
@[simp] theorem hardwareReset_job (m : Preset) : (hardwareReset m s).job = none := rfl
@[simp] theorem hardwareReset_params (m : Preset) : (hardwareReset m s).params = s.params := rfl
@[simp] theorem hardwareReset_offered (m : Preset) : (hardwareReset m s).offered = none := rfl
@[simp] theorem hardwareReset_inbox (m : Preset) : (hardwareReset m s).inbox = s.inbox := rfl
@[simp] theorem hardwareReset_taken (m : Preset) : (hardwareReset m s).taken = s.taken := rfl

/-! ### the sequencer back in IDLE -/

@[simp] theorem toIdle_lanes : (toIdle s).lanes = s.lanes := rfl
@[simp] theorem toIdle_buf : (toIdle s).buf = s.buf := rfl
@[simp] theorem toIdle_cnt : (toIdle s).cnt = s.cnt := rfl
@[simp] theorem toIdle_mode : (toIdle s).mode = s.mode := rfl
@[simp] theorem toIdle_fin : (toIdle s).fin = s.fin := rfl
@[simp] theorem toIdle_phase : (toIdle s).phase = .idle := rfl
@[simp] theorem toIdle_rnd : (toIdle s).rnd = 0 := rfl
@[simp] theorem toIdle_sqi : (toIdle s).sqi = 0 := rfl
@[simp] theorem toIdle_rq : (toIdle s).rq = s.rq := rfl
@[simp] theorem toIdle_job : (toIdle s).job = none := rfl
@[simp] theorem toIdle_params : (toIdle s).params = s.params := rfl
@[simp] theorem toIdle_offered : (toIdle s).offered = s.offered := rfl
@[simp] theorem toIdle_inbox : (toIdle s).inbox = s.inbox := rfl
@[simp] theorem toIdle_taken : (toIdle s).taken = s.taken := rfl

/-! ### XORB done -/

@[simp] theorem enterPerm_lanes (A : Lanes) : (enterPerm A s).lanes = A := rfl
@[simp] theorem enterPerm_buf (A : Lanes) : (enterPerm A s).buf = s.buf := rfl
@[simp] theorem enterPerm_cnt (A : Lanes) : (enterPerm A s).cnt = s.cnt := rfl
@[simp] theorem enterPerm_mode (A : Lanes) : (enterPerm A s).mode = s.mode := rfl
@[simp] theorem enterPerm_fin (A : Lanes) : (enterPerm A s).fin = s.fin := rfl
@[simp] theorem enterPerm_phase (A : Lanes) : (enterPerm A s).phase = .perm := rfl
@[simp] theorem enterPerm_rnd (A : Lanes) : (enterPerm A s).rnd = 0 := rfl
@[simp] theorem enterPerm_sqi (A : Lanes) : (enterPerm A s).sqi = s.sqi := rfl
@[simp] theorem enterPerm_rq (A : Lanes) : (enterPerm A s).rq = s.rq := rfl
@[simp] theorem enterPerm_job (A : Lanes) : (enterPerm A s).job = s.job := rfl
@[simp] theorem enterPerm_params (A : Lanes) : (enterPerm A s).params = s.params := rfl
@[simp] theorem enterPerm_offered (A : Lanes) : (enterPerm A s).offered = s.offered := rfl
@[simp] theorem enterPerm_inbox (A : Lanes) : (enterPerm A s).inbox = s.inbox := rfl
@[simp] theorem enterPerm_taken (A : Lanes) : (enterPerm A s).taken = s.taken := rfl

/-! ### the block boundary -/

@[simp] theorem blockBoundary_lanes : (blockBoundary s).lanes = absorbBlock s.mode (bufBytes s) s.lanes := rfl
@[simp] theorem blockBoundary_buf : (blockBoundary s).buf = [] := rfl
@[simp] theorem blockBoundary_cnt : (blockBoundary s).cnt = 0 := rfl
@[simp] theorem blockBoundary_mode : (blockBoundary s).mode = s.mode := rfl
@[simp] theorem blockBoundary_fin : (blockBoundary s).fin = s.fin := rfl
@[simp] theorem blockBoundary_phase : (blockBoundary s).phase = s.phase := rfl
@[simp] theorem blockBoundary_rnd : (blockBoundary s).rnd = s.rnd := rfl
@[simp] theorem blockBoundary_sqi : (blockBoundary s).sqi = s.sqi := rfl
@[simp] theorem blockBoundary_rq : (blockBoundary s).rq = s.rq := rfl
@[simp] theorem blockBoundary_job : (blockBoundary s).job = s.job := rfl
@[simp] theorem blockBoundary_params : (blockBoundary s).params = s.params := rfl
@[simp] theorem blockBoundary_offered : (blockBoundary s).offered = s.offered := rfl
@[simp] theorem blockBoundary_inbox : (blockBoundary s).inbox = s.inbox := rfl
@[simp] theorem blockBoundary_taken : (blockBoundary s).taken = s.taken := rfl

/-! ### the engine ready to accept -/

@[simp] theorem readyToAccept_lanes : (readyToAccept s).lanes = s.lanes := rfl
@[simp] theorem readyToAccept_buf : (readyToAccept s).buf = s.buf := rfl
@[simp] theorem readyToAccept_cnt : (readyToAccept s).cnt = s.cnt := rfl
@[simp] theorem readyToAccept_mode : (readyToAccept s).mode = s.mode := rfl
@[simp] theorem readyToAccept_fin : (readyToAccept s).fin = s.fin := rfl
@[simp] theorem readyToAccept_phase : (readyToAccept s).phase = .idle := rfl
@[simp] theorem readyToAccept_rnd : (readyToAccept s).rnd = 0 := rfl
@[simp] theorem readyToAccept_sqi : (readyToAccept s).sqi = 0 := rfl
@[simp] theorem readyToAccept_rq : (readyToAccept s).rq = s.rq := rfl
@[simp] theorem readyToAccept_job : (readyToAccept s).job = none := rfl
@[simp] theorem readyToAccept_params : (readyToAccept s).params = s.params := rfl
@[simp] theorem readyToAccept_offered : (readyToAccept s).offered = none := rfl
@[simp] theorem readyToAccept_inbox : (readyToAccept s).inbox = s.inbox := rfl
@[simp] theorem readyToAccept_taken : (readyToAccept s).taken = s.taken := rfl

/-! ### the reset state -/

@[simp] theorem resetOf_lanes (p : Params) (m : Preset) : (State.resetOf p m).lanes = zeroLanes := rfl
@[simp] theorem resetOf_buf (p : Params) (m : Preset) : (State.resetOf p m).buf = [] := rfl
@[simp] theorem resetOf_cnt (p : Params) (m : Preset) : (State.resetOf p m).cnt = 0 := rfl
@[simp] theorem resetOf_mode (p : Params) (m : Preset) : (State.resetOf p m).mode = m := rfl
@[simp] theorem resetOf_fin (p : Params) (m : Preset) : (State.resetOf p m).fin = false := rfl
@[simp] theorem resetOf_phase (p : Params) (m : Preset) : (State.resetOf p m).phase = .idle := rfl
@[simp] theorem resetOf_rnd (p : Params) (m : Preset) : (State.resetOf p m).rnd = 0 := rfl
@[simp] theorem resetOf_sqi (p : Params) (m : Preset) : (State.resetOf p m).sqi = 0 := rfl
@[simp] theorem resetOf_rq (p : Params) (m : Preset) : (State.resetOf p m).rq = [] := rfl
@[simp] theorem resetOf_job (p : Params) (m : Preset) : (State.resetOf p m).job = none := rfl
@[simp] theorem resetOf_params (p : Params) (m : Preset) : (State.resetOf p m).params = p := rfl
@[simp] theorem resetOf_offered (p : Params) (m : Preset) : (State.resetOf p m).offered = none := rfl
@[simp] theorem resetOf_inbox (p : Params) (m : Preset) : (State.resetOf p m).inbox = [] := rfl
@[simp] theorem resetOf_taken (p : Params) (m : Preset) : (State.resetOf p m).taken = [] := rfl

/-! ### taking a response -/

@[simp] theorem takeRsp_lanes : (takeRsp s).lanes = s.lanes := by
  unfold takeRsp; split <;> rfl
@[simp] theorem takeRsp_buf : (takeRsp s).buf = s.buf := by
  unfold takeRsp; split <;> rfl
@[simp] theorem takeRsp_cnt : (takeRsp s).cnt = s.cnt := by
  unfold takeRsp; split <;> rfl
@[simp] theorem takeRsp_mode : (takeRsp s).mode = s.mode := by
  unfold takeRsp; split <;> rfl
@[simp] theorem takeRsp_fin : (takeRsp s).fin = s.fin := by
  unfold takeRsp; split <;> rfl
@[simp] theorem takeRsp_phase : (takeRsp s).phase = s.phase := by
  unfold takeRsp; split <;> rfl
@[simp] theorem takeRsp_rnd : (takeRsp s).rnd = s.rnd := by
  unfold takeRsp; split <;> rfl
@[simp] theorem takeRsp_sqi : (takeRsp s).sqi = s.sqi := by
  unfold takeRsp; split <;> rfl
@[simp] theorem takeRsp_job : (takeRsp s).job = s.job := by
  unfold takeRsp; split <;> rfl
@[simp] theorem takeRsp_params : (takeRsp s).params = s.params := by
  unfold takeRsp; split <;> rfl
@[simp] theorem takeRsp_offered : (takeRsp s).offered = s.offered := by
  unfold takeRsp; split <;> rfl
@[simp] theorem takeRsp_inbox : (takeRsp s).inbox = s.inbox := by
  unfold takeRsp; split <;> rfl
@[simp] theorem takeRsp_responses : (takeRsp s).taken ++ (takeRsp s).rq = s.taken ++ s.rq := by
  unfold takeRsp; split <;> simp_all

/-! ### the ports at an edge -/

@[simp] theorem portEdge_lanes (p : Pins) : (portEdge p s).lanes = s.lanes := by
  unfold portEdge; split <;> simp
@[simp] theorem portEdge_buf (p : Pins) : (portEdge p s).buf = s.buf := by
  unfold portEdge; split <;> simp
@[simp] theorem portEdge_cnt (p : Pins) : (portEdge p s).cnt = s.cnt := by
  unfold portEdge; split <;> simp
@[simp] theorem portEdge_mode (p : Pins) : (portEdge p s).mode = s.mode := by
  unfold portEdge; split <;> simp
@[simp] theorem portEdge_fin (p : Pins) : (portEdge p s).fin = s.fin := by
  unfold portEdge; split <;> simp
@[simp] theorem portEdge_phase (p : Pins) : (portEdge p s).phase = s.phase := by
  unfold portEdge; split <;> simp
@[simp] theorem portEdge_rnd (p : Pins) : (portEdge p s).rnd = s.rnd := by
  unfold portEdge; split <;> simp
@[simp] theorem portEdge_sqi (p : Pins) : (portEdge p s).sqi = s.sqi := by
  unfold portEdge; split <;> simp
@[simp] theorem portEdge_job (p : Pins) : (portEdge p s).job = s.job := by
  unfold portEdge; split <;> simp
@[simp] theorem portEdge_params (p : Pins) : (portEdge p s).params = s.params := by
  unfold portEdge; split <;> simp
@[simp] theorem portEdge_inbox (p : Pins) : (portEdge p s).inbox = s.inbox := by
  unfold portEdge; split <;> simp
@[simp] theorem portEdge_offered (p : Pins) :
    (portEdge p s).offered = if s.phase = .idle then none else p.presented := rfl
@[simp] theorem portEdge_responses (p : Pins) :
    (portEdge p s).taken ++ (portEdge p s).rq = s.taken ++ s.rq := by
  unfold portEdge; split <;> simp

end Sys2Proof.Machine
end

