-- ==== Sys2Proof/Laws/Memory.lean ====
section
/-! SUPPORT. The byte store: read after write, and that a write keeps the canonical form and bounds on the listed offsets. -/

namespace Sys2Proof.Machine

/-- Offsets strictly rising: the part of the canonical form that reads rely on. -/
abbrev Memory.sorted (m : Memory) : Prop := m.Pairwise (fun a b => a.1 < b.1)

/-- An offset that is not listed reads as `unlisted`. -/
theorem Memory.read_of_not_mem {m : Memory} {k : Nat} (h : ∀ c ∈ m, c.1 ≠ k) : m.read k = Memory.unlisted := by
  induction m with
  | nil => rfl
  | cons c m ih =>
    have hc : k ≠ c.1 := fun e => h c (by simp) e.symm
    simp [Memory.read, hc, ih fun d hd => h d (by simp [hd])]

/-- Every entry after a write is the written one or an old one. -/
theorem Memory.mem_write {m : Memory} {k : Nat} {v : Byte} {c : Host.Cell} (h : c ∈ m.write k v) :
    c = (k, v) ∧ v ≠ Memory.unlisted ∨ c ∈ m := by
  induction m with
  | nil =>
    simp only [Memory.write] at h
    split at h <;> simp_all
  | cons d m ih =>
    simp only [Memory.write] at h
    split at h
    · split at h <;> simp_all
    · split at h
      · split at h
        · exact .inr (by simp [h])
        · rcases List.mem_cons.1 h with h | h
          · exact .inl ⟨h, by assumption⟩
          · exact .inr (by simp [h])
      · rcases List.mem_cons.1 h with h | h
        · exact .inr (by simp [h])
        · rcases ih h with h | h
          · exact .inl h
          · exact .inr (by simp [h])

/-- A write keeps the offsets rising. -/
theorem Memory.write_sorted {m : Memory} (h : m.sorted) (k : Nat) (v : Byte) : (m.write k v).sorted := by
  induction m with
  | nil =>
    simp only [Memory.write]
    split <;> simp
  | cons c m ih =>
    have hm := List.pairwise_cons.1 h
    simp only [Memory.write]
    split
    · split
      · exact h
      · refine List.pairwise_cons.2 ⟨fun d hd => ?_, h⟩
        rcases List.mem_cons.1 hd with rfl | hd
        · assumption
        · have := hm.1 d hd
          simp only
          omega
    · split
      · split
        · exact hm.2
        · refine List.pairwise_cons.2 ⟨fun d hd => ?_, hm.2⟩
          have := hm.1 d hd
          simp only
          omega
      · refine List.pairwise_cons.2 ⟨fun d hd => ?_, ih hm.2⟩
        rcases Memory.mem_write hd with ⟨rfl, -⟩ | hd
        · simp only
          omega
        · exact hm.1 d hd

/-- A write keeps the canonical form. -/
theorem Memory.write_wf {m : Memory} (h : m.wf) {k : Nat} (hk : k < Config.rMax) (v : Byte) : (m.write k v).wf := by
  refine ⟨Memory.write_sorted h.1 k v, fun c hc => ?_⟩
  rcases Memory.mem_write hc with ⟨rfl, hv⟩ | hc
  · exact ⟨hv, hk⟩
  · exact h.2 c hc

/-- The empty store is canonical. -/
theorem Memory.nil_wf : Memory.wf [] := by simp [Memory.wf]

/-- Read after write. -/
theorem Memory.read_write {m : Memory} (h : m.sorted) (k : Nat) (v : Byte) (j : Nat) :
    (m.write k v).read j = if j = k then v else m.read j := by
  induction m with
  | nil =>
    simp only [Memory.write]
    split <;> split <;> simp_all [Memory.read]
  | cons c m ih =>
    have hm := List.pairwise_cons.1 h
    simp only [Memory.write]
    split
    · rename_i hkc
      have hk : Memory.read (c :: m) k = Memory.unlisted := by
        refine Memory.read_of_not_mem fun d hd => ?_
        rcases List.mem_cons.1 hd with rfl | hd
        · omega
        · have := hm.1 d hd
          omega
      split
      · rename_i hv
        split
        · rename_i hj
          rw [hj, hk, hv]
        · rfl
      · by_cases hj : j = k <;> simp [Memory.read, hj]
    · split
      · rename_i hkc
        have hk : Memory.read m k = Memory.unlisted := by
          refine Memory.read_of_not_mem fun d hd => ?_
          have := hm.1 d hd
          omega
        split
        · rename_i hv
          by_cases hj : j = k
          · simp [hj, hk, hv]
          · simp [Memory.read, hj, ← hkc]
        · by_cases hj : j = k <;> simp [Memory.read, hj, ← hkc]
      · by_cases hjc : j = c.1
        · have : j ≠ k := by omega
          simp [Memory.read, hjc]
          omega
        · simp [Memory.read, hjc, ih hm.2]

/-- Read after write, the same offset. -/
@[simp] theorem Memory.read_write_self {m : Memory} (h : m.sorted) (k : Nat) (v : Byte) : (m.write k v).read k = v := by
  simp [Memory.read_write h]

/-- A write at `k` leaves every other offset alone. -/
theorem Memory.read_write_other {m : Memory} (h : m.sorted) {k j : Nat} (v : Byte) (hj : j ≠ k) :
    (m.write k v).read j = m.read j := by
  simp [Memory.read_write h, hj]

/-- Every listed offset lies below `n + 1` after a write at `n`, if it lay below `n` before. -/
theorem Memory.write_bound {m : Memory} {n : Nat} (h : ∀ c ∈ m, c.1 < n) (v : Byte) :
    ∀ c ∈ m.write n v, c.1 < n + 1 := by
  intro c hc
  rcases Memory.mem_write hc with ⟨rfl, -⟩ | hc
  · simp
  · exact Nat.lt_succ_of_lt (h c hc)

/-- The bytes of BUF after `bufPush`: the old ones and the new one. -/
theorem bufBytes_push {s : State} (h : s.buf.sorted) (data : Byte) :
    bufBytes { s with buf := s.buf.write s.cnt data, cnt := s.cnt + 1 } = bufBytes s ++ [data] := by
  simp only [bufBytes, bufRead, List.range_succ, List.map_append, List.map_cons, List.map_nil]
  rw [Memory.read_write_self h]
  congr 1
  refine List.map_congr_left fun k hk => ?_
  exact Memory.read_write_other h data (by simp at hk; omega)

/-- The bytes of BUF are CNT many. -/
@[simp] theorem bufBytes_length (s : State) : (bufBytes s).length = s.cnt := by simp [bufBytes]

end Sys2Proof.Machine
end

