-- ==== Sys2Proof/Laws/Encoding.lean ====
section
/-! SUPPORT. The fields of a command word and of a response word, read back from the word built of them; what a word that decodes
looks like. -/

namespace Sys2Proof

theorem cmdOp_cmdWord (op : BitVec 4) (a : Byte) : cmdOp (cmdWord op a) = op := by
  refine BitVec.eq_of_getLsbD_eq fun i hi => ?_
  have h1 : 12 + i < 16 := by omega
  simp [cmdOp, cmdWord, hi, a.getLsbD_of_ge (12 + i) (by omega), h1]

theorem cmdZero_cmdWord (op : BitVec 4) (a : Byte) : cmdZero (cmdWord op a) = 0 := by
  refine BitVec.eq_of_getLsbD_eq fun i hi => ?_
  simp [cmdZero, cmdWord, hi]
  intros
  omega

theorem cmdArg_cmdWord (op : BitVec 4) (a : Byte) : cmdArg (cmdWord op a) = a := by
  refine BitVec.eq_of_getLsbD_eq fun i hi => ?_
  have h1 : i < 16 := by omega
  have h2 : i < 12 := by omega
  simp [cmdArg, cmdWord, hi, h1, h2]

/-- A word whose `zero` field is 0 is the word of its `op` and `arg`. -/
theorem cmdWord_fields {w : Word} (h : cmdZero w = 0) : cmdWord (cmdOp w) (cmdArg w) = w := by
  refine BitVec.eq_of_getLsbD_eq fun i hi => ?_
  by_cases h1 : i < 8
  · have h2 : i < 12 := by omega
    simp [cmdWord, cmdArg, cmdOp, h1, hi, h2]
  · by_cases h2 : i < 12
    · have hz := congrArg (fun v => v.getLsbD (i - 8)) h
      have e : 8 + (i - 8) = i := by omega
      have h3 : i - 8 < 4 := by omega
      simp [cmdZero, h3, e, hi] at hz
      simp [cmdWord, cmdArg, cmdOp, h1, h2, hi, hz]
    · have e : 12 + (i - 12) = i := by omega
      have h3 : i - 12 < 4 := by omega
      simp [cmdWord, cmdArg, cmdOp, h1, h2, e, h3, hi]

/-- `op << 12 | arg`. -/
theorem cmdWord_or (op : BitVec 4) (a : Byte) : cmdWord op a = cmdWord op 0 ||| a.setWidth 16 := by simp [cmdWord]

/-- Response words are built as command words are. -/
theorem rspWordOf_eq : rspWordOf = cmdWord := rfl

@[simp] theorem Preset.ofCode_code (m : Preset) : Preset.ofCode m.code = m := by cases m <;> rfl

@[simp] theorem Preset.code_ofCode : ∀ b : BitVec 2, (Preset.ofCode b).code = b := by decide

/-- INIT's `arg` is `mode` with six zero bits above. -/
theorem initArg_eq : ∀ a : Byte, a.extractLsb' 2 6 = 0 → (Preset.ofCode (a.extractLsb' 0 2)).code.setWidth 8 = a := by
  decide

/-- A 4-bit value as the literal of its number. -/
theorem nibble_eq {op : BitVec 4} {n : Nat} (h : op.toNat = n) : op = BitVec.ofNat 4 n := by simp [← h]

/-- What a word that decodes looks like, by command. -/
theorem decode_cases {w : Word} {i : Instr} (h : decode w = .ok i) :
    cmdZero w = 0 ∧
    ((cmdOp w = 1 ∧ cmdArg w = 0 ∧ i = .reset) ∨
     (cmdOp w = 2 ∧ (cmdArg w).extractLsb' 2 6 = 0 ∧ i = .init (Preset.ofCode ((cmdArg w).extractLsb' 0 2))) ∨
     (cmdOp w = 3 ∧ i = .absorb (cmdArg w)) ∨ (cmdOp w = 4 ∧ i = .final (cmdArg w)) ∨
     (cmdOp w = 5 ∧ cmdArg w = 0 ∧ i = .qdsz) ∨ (cmdOp w = 6 ∧ cmdArg w = 0 ∧ i = .qrate)) := by
  unfold decode at h
  split at h
  · cases h
  · rename_i hz
    refine ⟨by simpa using hz, ?_⟩
    split at h <;> rename_i hn
    · have := nibble_eq hn
      simp only [decodeNoOperand] at h
      split at h <;> simp_all
    · have := nibble_eq hn
      simp only [decodeInit] at h
      split at h <;> simp_all
    · have := nibble_eq hn
      simp_all
    · have := nibble_eq hn
      simp_all
    · have := nibble_eq hn
      simp only [decodeNoOperand] at h
      split at h <;> simp_all
    · have := nibble_eq hn
      simp only [decodeNoOperand] at h
      split at h <;> simp_all
    · cases h

end Sys2Proof
end

