-- ==== Sys2Proof/Laws/Lanes.lean ====
section
/-! SUPPORT. Sizes by preset; the permutation lane by lane; rounds in sequence; XORBLOCK, padding and the byte view. -/

namespace Sys2Proof.Machine

/-! ### sizes -/

theorem digestSize_le (m : Preset) : m.digestSize ≤ 64 := by cases m <;> decide

theorem rate_bounds (m : Preset) : 72 ≤ rate m ∧ rate m ≤ Config.rMax ∧ 8 * lanesPerBlock m = rate m := by
  cases m <;> decide

theorem rate_pos (m : Preset) : 0 < rate m := by have := rate_bounds m; omega

theorem lanesPerBlock_le (m : Preset) : lanesPerBlock m ≤ 18 := by cases m <;> decide

theorem roundsPerCycle_pos (k : RoundsPerCycle) : 0 < k.count := by cases k <;> decide

theorem roundsPerCycle_dvd (k : RoundsPerCycle) : k.count ∣ Config.nRounds := by cases k <;> decide

/-! ### the five steps, by lane index -/

theorem theta_getElem (A : Lanes) (i : Nat) (h : i < 25) : (theta A)[i] = A[i] ^^^ thetaEffect A (i % 5) := by
  simp [theta]

theorem rho_getElem (A : Lanes) (i : Nat) (h : i < 25) : (rho A)[i] = rotl64 A[i] romRho[i] := by
  simp [rho]

theorem piStep_getElem (A : Lanes) (i : Nat) (h : i < 25) : (piStep A)[i] = A[piSrc[i]] := by
  simp [piStep]

theorem chi_getElem (A : Lanes) (i : Nat) (h : i < 25) :
    (chi A)[i] = A[i] ^^^ (~~~laneAt A (i + 1) (i / 5) &&& laneAt A (i + 2) (i / 5)) := by
  simp [chi]

theorem iota_getElem (A : Lanes) (ir i : Nat) (h : i < 25) :
    (iota A ir)[i] = if i = 0 then A[0] ^^^ romRc[ir]?.getD 0 else A[i] := by
  simp only [iota, Vector.getElem_set]
  split <;> simp_all [eq_comm]

/-! ### rounds -/

@[simp] theorem rounds_zero (ir : Nat) (A : Lanes) : rounds ir 0 A = A := rfl

theorem rounds_succ (ir n : Nat) (A : Lanes) : rounds ir (n + 1) A = rounds (ir + 1) n (keccakRound A ir) := rfl

/-- Rounds run in two parts. -/
theorem rounds_add (ir m n : Nat) (A : Lanes) : rounds ir (m + n) A = rounds (ir + m) n (rounds ir m A) := by
  induction m generalizing ir A with
  | zero => simp
  | succ m ih =>
    rw [Nat.add_right_comm, rounds_succ, ih, rounds_succ]
    congr 1
    omega

theorem permute_eq_rounds (A : Lanes) : permute A = rounds 0 Config.nRounds A := by rw [permute]

/-! ### XORBLOCK, padding, byte view -/

theorem xorBlock_getElem (n : Nat) (blk : List Byte) (A : Lanes) (i : Nat) (h : i < 25) :
    (xorBlock n blk A)[i] = if i < n then A[i] ^^^ laneOf blk i else A[i] := by
  rw [xorBlock]
  simp

@[simp] theorem padTail_length (rule : PadRule) (r : Nat) (tail : List Byte) (h : tail.length ≤ r) :
    (padTail rule r tail).length = r := by
  cases rule <;> simp [padTail] <;> omega

@[simp] theorem stRead_length (A : Lanes) (a n : Nat) : (stRead A a n).length = n := by simp [stRead]

/-- A read of bytes in two parts. -/
theorem stRead_add (A : Lanes) (a m n : Nat) : stRead A a (m + n) = stRead A a m ++ stRead A (a + m) n := by
  simp [stRead, List.range_add, Nat.add_assoc]

theorem stRead_one (A : Lanes) (a : Nat) : stRead A a 1 = [stByte A a] := by simp [stRead, List.range_succ]

/-- A byte of a byte placed in a lane: itself at its own position, zero elsewhere. -/
theorem laneByte_byteInLane (b : Byte) {t u : Nat} (ht : t < 8) (hu : u < 8) :
    laneByte (byteInLane b t) u = if u = t then b else 0 := by
  refine BitVec.eq_of_getLsbD_eq fun i hi => ?_
  by_cases h : u = t
  · subst h
    have h1 : 8 * u + i < 64 := by omega
    simp [laneByte, byteInLane, hi, h1]
  · simp only [laneByte, byteInLane, BitVec.getLsbD_extractLsb', hi, h, if_false, BitVec.getLsbD_shiftLeft,
      BitVec.getLsbD_setWidth]
    by_cases hlt : u < t
    · have : 8 * u + i < 8 * t := by omega
      simp [this]
    · have h3 : b.getLsbD (8 * u + i - 8 * t) = false := b.getLsbD_of_ge _ (by omega)
      simp [h3]

theorem laneByte_xor (a b : Lane) (j : Nat) : laneByte (a ^^^ b) j = laneByte a j ^^^ laneByte b j := by
  simp [laneByte, BitVec.extractLsb'_xor]

theorem laneByte_or (a b : Lane) (j : Nat) : laneByte (a ||| b) j = laneByte a j ||| laneByte b j := by
  simp [laneByte, BitVec.extractLsb'_or]

/-- Byte `u` of `lane_of(blk, j)` is block byte `8j + u` (R31). -/
theorem laneByte_laneOf (blk : List Byte) (j : Nat) {u : Nat} (hu : u < 8) :
    laneByte (laneOf blk j) u = blockByte blk (8 * j + u) := by
  have : u = 0 ∨ u = 1 ∨ u = 2 ∨ u = 3 ∨ u = 4 ∨ u = 5 ∨ u = 6 ∨ u = 7 := by omega
  rcases this with rfl | rfl | rfl | rfl | rfl | rfl | rfl | rfl <;>
    simp [laneOf, laneByte_or, laneByte_byteInLane]

end Sys2Proof.Machine
end

