-- ==== Sys2Proof/Laws/Exec.lean ====
section
/-! SUPPORT. The words of responses; what each command can do, once per command, so that later proofs do not unfold a meaning; and
that a command's effect does not depend on what RQ holds. -/

namespace Sys2Proof

/-! ### response words (R50) -/

theorem word_ack : Rsp.word .ack = 0x1000#16 := by decide

theorem word_data (b : Byte) : (Rsp.data b).word = 0x2000#16 ||| b.setWidth 16 := by
  simp only [Rsp.word, rspWordOf_eq]
  rw [cmdWord_or]
  rfl

theorem word_done (n : Byte) : (Rsp.done n).word = 0x3000#16 ||| n.setWidth 16 := by
  simp only [Rsp.word, rspWordOf_eq]
  rw [cmdWord_or]
  rfl

theorem word_val (v : Byte) : (Rsp.val v).word = 0x4000#16 ||| v.setWidth 16 := by
  simp only [Rsp.word, rspWordOf_eq]
  rw [cmdWord_or]
  rfl

theorem word_err (c : Cause) : (Rsp.err c).word = 0xF000#16 ||| c.code.setWidth 16 := by cases c <;> decide

/-- The kind field of a response word. -/
def Rsp.kind : Rsp → BitVec 4
  | .ack => 0x1
  | .data _ => 0x2
  | .done _ => 0x3
  | .val _ => 0x4
  | .err _ => 0xF

/-- The payload field of a response word. -/
def Rsp.payloadByte : Rsp → Byte
  | .ack => 0
  | .data b | .done b | .val b => b
  | .err c => c.code

theorem Rsp.word_fields (r : Rsp) : r.word = cmdWord r.kind r.payloadByte := by cases r <;> rfl

@[simp] theorem cmdOp_word (r : Rsp) : cmdOp r.word = r.kind := by rw [Rsp.word_fields, cmdOp_cmdWord]

@[simp] theorem cmdZero_word (r : Rsp) : cmdZero r.word = 0 := by rw [Rsp.word_fields, cmdZero_cmdWord]

@[simp] theorem cmdArg_word (r : Rsp) : cmdArg r.word = r.payloadByte := by rw [Rsp.word_fields, cmdArg_cmdWord]

/-- Every response reads back from its word. -/
@[simp] theorem Rsp.ofWord_word (r : Rsp) : Rsp.ofWord r.word = some r := by
  have h1 : r.word.extractLsb' 12 4 = r.kind := cmdOp_word r
  have h2 : r.word.extractLsb' 8 4 = 0 := cmdZero_word r
  have h3 : r.word.extractLsb' 0 8 = r.payloadByte := cmdArg_word r
  unfold Rsp.ofWord
  rw [h1, h2, h3]
  cases r with
  | err c => cases c <;> rfl
  | _ => rfl

theorem Rsp.word_injective {q r : Rsp} (h : q.word = r.word) : q = r := by
  have := Rsp.ofWord_word q
  rw [h, Rsp.ofWord_word] at this
  exact (Option.some.inj this).symm

@[simp] theorem Rsp.word_inj {q r : Rsp} : q.word = r.word ↔ q = r := ⟨Rsp.word_injective, congrArg _⟩

end Sys2Proof

namespace Sys2Proof.Machine

/-! ### what each command can do -/

/-- The state after an ABSORB's write of BUF (R74). -/
abbrev pushed (data : Byte) (s : State) : State := { s with buf := s.buf.write s.cnt data, cnt := s.cnt + 1 }

theorem exec_reset (s : State) : exec .reset s = .next (emit .ack (clearMessage s)) := rfl

theorem exec_init (m : Preset) (s : State) : exec (.init m) s = .next (emit .ack (clearMessage { s with mode := m })) := rfl

theorem exec_qdsz (s : State) : exec .qdsz s = .next (emit (.val (payload s.mode.digestSize)) s) := rfl

theorem exec_qrate (s : State) : exec .qrate s = .next (emit (.val (payload (rate s.mode))) s) := rfl

theorem exec_absorb_consumed (data : Byte) {s : State} (hf : s.fin = true) :
    exec (.absorb data) s = .next (emit (.err .consumed) s) := by
  simp [exec, execAbsorb, absorbError, hf, raiseErr]

theorem bufPush_eq (data : Byte) {s : State} (h : s.cnt < rate s.mode) : bufPush data s = some (pushed data s) := if_pos h

theorem absorbError_none {s : State} (hf : s.fin = false) : absorbError s = none := by simp [absorbError, hf]

theorem exec_absorb_below (data : Byte) {s : State} (hf : s.fin = false) (h : s.cnt + 1 < rate s.mode) :
    exec (.absorb data) s = .next (emit .ack (pushed data s)) := by
  simp only [exec, execAbsorb, absorbError_none hf, bufPush_eq data (Nat.lt_of_succ_lt h)]
  exact congrArg _ (congrArg _ (if_neg (by show s.cnt + 1 ≠ rate s.mode; omega)))

theorem exec_absorb_boundary (data : Byte) {s : State} (hf : s.fin = false) (h : s.cnt + 1 = rate s.mode) :
    exec (.absorb data) s = .next (emit .ack (blockBoundary (pushed data s))) := by
  have h1 : s.cnt < rate s.mode := by omega
  simp only [exec, execAbsorb, absorbError_none hf, bufPush_eq data h1]
  exact congrArg _ (congrArg _ (if_pos h))

theorem exec_absorb_overfull (data : Byte) {s : State} (hf : s.fin = false) (h : rate s.mode ≤ s.cnt) :
    exec (.absorb data) s = .fault .fillBeyondRate := by
  simp [exec, execAbsorb, absorbError, hf, bufPush, Nat.not_lt.2 h]

/-- The state after FINAL's permutation, squeeze and close (R75), before its completion word. -/
def finalized (size : Byte) (s : State) : State :=
  let A := absorbBlock s.mode (padTail s.params.padRule (rate s.mode) (bufBytes s)) s.lanes
  setFin (bufEmpty (emitAll (squeeze A (sizeOperand size)) { s with lanes := A }))

theorem exec_final_invalid {size : Byte} {s : State} (h : s.mode.digestSize < size.toNat) :
    exec (.final size) s = .next (emit (.err .invalidArgument) s) := by
  simp [exec, execFinal, finalError, sizeExceeds, sizeOperand, h, raiseErr]

theorem exec_final_consumed {size : Byte} {s : State} (h : size.toNat ≤ s.mode.digestSize) (hf : s.fin = true) :
    exec (.final size) s = .next (emit (.err .consumed) s) := by
  simp [exec, execFinal, finalError, sizeExceeds, sizeOperand, Nat.not_lt.2 h, hf, raiseErr]

theorem exec_final_ok {size : Byte} {s : State} (h : size.toNat ≤ s.mode.digestSize) (hf : s.fin = false)
    (hc : s.cnt < rate s.mode) : exec (.final size) s = .next (emit (.done size) (finalized size s)) := by
  simp [exec, execFinal, finalError, sizeExceeds, sizeOperand, Nat.not_lt.2 h, hf, padBlock, hc, finalized]

theorem exec_final_overfull {size : Byte} {s : State} (h : size.toNat ≤ s.mode.digestSize) (hf : s.fin = false)
    (hc : rate s.mode ≤ s.cnt) : exec (.final size) s = .fault .fillBeyondRate := by
  simp [exec, execFinal, finalError, sizeExceeds, sizeOperand, Nat.not_lt.2 h, hf, padBlock, Nat.not_lt.2 hc]

/-- Everything ABSORB can do when it answers a next state. -/
theorem exec_absorb_cases {data : Byte} {s t : State} (h : exec (.absorb data) s = .next t) :
    (s.fin = true ∧ t = emit (.err .consumed) s) ∨
    (s.fin = false ∧ s.cnt + 1 < rate s.mode ∧ t = emit .ack (pushed data s)) ∨
    (s.fin = false ∧ s.cnt + 1 = rate s.mode ∧ t = emit .ack (blockBoundary (pushed data s))) := by
  cases hf : s.fin with
  | true =>
    rw [exec_absorb_consumed data hf] at h
    exact .inl ⟨rfl, by cases h; rfl⟩
  | false =>
    rcases Nat.lt_trichotomy (s.cnt + 1) (rate s.mode) with hc | hc | hc
    · rw [exec_absorb_below data hf hc] at h
      exact .inr (.inl ⟨rfl, hc, by cases h; rfl⟩)
    · rw [exec_absorb_boundary data hf hc] at h
      exact .inr (.inr ⟨rfl, hc, by cases h; rfl⟩)
    · rw [exec_absorb_overfull data hf (by omega)] at h
      cases h

/-- Everything FINAL can do when it answers a next state. -/
theorem exec_final_cases {size : Byte} {s t : State} (h : exec (.final size) s = .next t) :
    (s.mode.digestSize < size.toNat ∧ t = emit (.err .invalidArgument) s) ∨
    (size.toNat ≤ s.mode.digestSize ∧ s.fin = true ∧ t = emit (.err .consumed) s) ∨
    (size.toNat ≤ s.mode.digestSize ∧ s.fin = false ∧ s.cnt < rate s.mode ∧
      t = emit (.done size) (finalized size s)) := by
  rcases Nat.lt_or_ge s.mode.digestSize size.toNat with hd | hd
  · rw [exec_final_invalid hd] at h
    exact .inl ⟨hd, by cases h; rfl⟩
  · cases hf : s.fin with
    | true =>
      rw [exec_final_consumed hd hf] at h
      exact .inr (.inl ⟨hd, rfl, by cases h; rfl⟩)
    | false =>
      rcases Nat.lt_or_ge s.cnt (rate s.mode) with hc | hc
      · rw [exec_final_ok hd hf hc] at h
        exact .inr (.inr ⟨hd, rfl, hc, by cases h; rfl⟩)
      · rw [exec_final_overfull hd hf hc] at h
        cases h

/-! ### fields of the shared results -/

@[simp] theorem finalized_cnt (size : Byte) (s : State) : (finalized size s).cnt = 0 := rfl
@[simp] theorem finalized_buf (size : Byte) (s : State) : (finalized size s).buf = [] := rfl
@[simp] theorem finalized_fin (size : Byte) (s : State) : (finalized size s).fin = true := rfl
@[simp] theorem finalized_mode (size : Byte) (s : State) : (finalized size s).mode = s.mode := rfl
@[simp] theorem finalized_params (size : Byte) (s : State) : (finalized size s).params = s.params := rfl
@[simp] theorem finalized_lanes (size : Byte) (s : State) : (finalized size s).lanes =
    absorbBlock s.mode (padTail s.params.padRule (rate s.mode) (bufBytes s)) s.lanes := rfl
@[simp] theorem finalized_rq (size : Byte) (s : State) : (finalized size s).rq =
    s.rq ++ (squeeze (absorbBlock s.mode (padTail s.params.padRule (rate s.mode) (bufBytes s)) s.lanes)
      (sizeOperand size)).map Rsp.word := rfl

/-! ### a command does not read RQ -/

/-- What a command appends to RQ and what it makes of the rest of the state do not depend on what RQ holds, nor on what the host has
taken, has on the port, or will do. -/
theorem exec_independent {i : Instr} {s t : State} (h : exec i s = .next t) :
    ∃ rs : List Rsp, t.rq = s.rq ++ rs.map Rsp.word ∧ ∀ (q tk : List Word) (o : Option Word) (ib : List HostMove),
      exec i { s with rq := q, taken := tk, offered := o, inbox := ib } =
        .next { t with rq := q ++ rs.map Rsp.word, taken := tk, offered := o, inbox := ib } := by
  cases i with
  | reset => cases h; exact ⟨[.ack], rfl, fun _ _ _ _ => rfl⟩
  | init m => cases h; exact ⟨[.ack], rfl, fun _ _ _ _ => rfl⟩
  | qdsz => cases h; exact ⟨[.val _], rfl, fun _ _ _ _ => rfl⟩
  | qrate => cases h; exact ⟨[.val _], rfl, fun _ _ _ _ => rfl⟩
  | absorb data =>
    rcases exec_absorb_cases h with ⟨hf, rfl⟩ | ⟨hf, hc, rfl⟩ | ⟨hf, hc, rfl⟩
    · exact ⟨[.err .consumed], rfl, fun q tk o ib => by rw [exec_absorb_consumed data (by exact hf)]; rfl⟩
    · exact ⟨[.ack], rfl, fun q tk o ib => by rw [exec_absorb_below data (by exact hf) (by exact hc)]; rfl⟩
    · exact ⟨[.ack], rfl, fun q tk o ib => by rw [exec_absorb_boundary data (by exact hf) (by exact hc)]; rfl⟩
  | final size =>
    rcases exec_final_cases h with ⟨hd, rfl⟩ | ⟨hd, hf, rfl⟩ | ⟨hd, hf, hc, rfl⟩
    · exact ⟨[.err .invalidArgument], rfl, fun q tk o ib => by rw [exec_final_invalid (by exact hd)]; rfl⟩
    · exact ⟨[.err .consumed], rfl, fun q tk o ib => by rw [exec_final_consumed (by exact hd) (by exact hf)]; rfl⟩
    · refine ⟨squeeze (finalized size s).lanes (sizeOperand size) ++ [.done size], ?_, fun q tk o ib => ?_⟩
      · simp [emit, finalized_rq]
      · rw [exec_final_ok (by exact hd) (by exact hf) (by exact hc)]
        simp only [emit, finalized, setFin, bufEmpty, emitAll, List.map_append, List.append_assoc]
        rfl

end Sys2Proof.Machine
end

