-- ==== Sys2Proof/Laws/PerInstr.lean ====
section
/-! SUPPORT. Statements about every command as syntax, one lemma per constructor of Instr. -/

namespace Sys2Proof.Laws.AssignedWord

/-- The word of a command has `op` in 1..6 and `zero` 0 (R45, R47), so no command encodes to `0x0000`. -/
def Statement (i : Instr) : Prop :=
  cmdZero (encode i) = 0 ∧ 1 ≤ (cmdOp (encode i)).toNat ∧ (cmdOp (encode i)).toNat ≤ 6

theorem reset : Statement .reset := by
  simp [Statement, encode, cmdZero_cmdWord, cmdOp_cmdWord]

theorem init (mode : Preset) : Statement (.init mode) := by
  simp [Statement, encode, cmdZero_cmdWord, cmdOp_cmdWord]

theorem absorb (data : Byte) : Statement (.absorb data) := by
  simp [Statement, encode, cmdZero_cmdWord, cmdOp_cmdWord]

theorem final (size : Byte) : Statement (.final size) := by
  simp [Statement, encode, cmdZero_cmdWord, cmdOp_cmdWord]

theorem qdsz : Statement .qdsz := by
  simp [Statement, encode, cmdZero_cmdWord, cmdOp_cmdWord]

theorem qrate : Statement .qrate := by
  simp [Statement, encode, cmdZero_cmdWord, cmdOp_cmdWord]

end Sys2Proof.Laws.AssignedWord
end

