-- ==== Sys2Proof/Laws/Permutation.lean ====
section
/-! SUPPORT. Each step of a round loses no information: equal results come from equal lanes. THETA is the one that needs an
argument: its effect on the column parities, as a linear map over bits, has order dividing 192. -/

namespace Sys2Proof.Machine

/-! ### RHO, PI, IOTA -/

/-- Bit `k` of a lane rotated left by `n` is bit `k - n` of the lane, counted modulo 64. -/
theorem rotl64_getLsbD (a : Lane) {n k : Nat} (hn : n < 64) (hk : k < 64) :
    (rotl64 a n).getLsbD k = a.getLsbD ((k + (64 - n)) % 64) := by
  unfold rotl64
  split
  · subst_vars
    simp [Nat.mod_eq_of_lt hk]
  · by_cases h : k < n
    · have e : (k + (64 - n)) % 64 = 64 - n + k := by omega
      simp [h, hk, e]
    · have e : (k + (64 - n)) % 64 = k - n := by omega
      have e1 : k - n < 64 := by omega
      simp [h, hk, e, e1, a.getLsbD_of_ge (64 - n + k) (by omega), BitVec.getLsbD_eq_getElem]

theorem rotl64_injective {n : Nat} (hn : n < 64) {a b : Lane} (h : rotl64 a n = rotl64 b n) : a = b := by
  refine BitVec.eq_of_getLsbD_eq fun k hk => ?_
  have := congrArg (fun v => v.getLsbD ((k + n) % 64)) h
  simp only [rotl64_getLsbD _ hn (Nat.mod_lt _ (by omega : 0 < 64))] at this
  rwa [show ((k + n) % 64 + (64 - n)) % 64 = k by omega] at this

theorem romRho_lt : ∀ i : Fin 25, romRho[i] < 64 := by decide

theorem rho_injective {A B : Lanes} (h : rho A = rho B) : A = B := by
  refine Vector.ext fun i hi => ?_
  have := congrArg (fun V : Lanes => V[i]) h
  simp only [rho_getElem] at this
  exact rotl64_injective (romRho_lt ⟨i, hi⟩) this

theorem piSrc_romPi : ∀ i : Fin 25, piSrc[romPi[i]] = i := by decide

theorem piStep_injective {A B : Lanes} (h : piStep A = piStep B) : A = B := by
  refine Vector.ext fun i hi => ?_
  have := congrArg (fun V : Lanes => V[romPi[i]]) h
  simp only [Fin.getElem_fin, piStep_getElem] at this
  have e : piSrc[(romPi[i]).val] = ⟨i, hi⟩ := piSrc_romPi ⟨i, hi⟩
  simpa [e] using this

theorem iota_injective (ir : Nat) {A B : Lanes} (h : iota A ir = iota B ir) : A = B := by
  refine Vector.ext fun i hi => ?_
  have := congrArg (fun V : Lanes => V[i]) h
  simp only [iota_getElem] at this
  split at this
  · subst_vars
    exact (BitVec.xor_left_inj _).1 this
  · exact this

/-! ### CHI, by rows of five bits -/

/-- CHI on one row of five bits. -/
def chiRow (a b c d e : Bool) : Bool × Bool × Bool × Bool × Bool :=
  (a ^^ (!b && c), b ^^ (!c && d), c ^^ (!d && e), d ^^ (!e && a), e ^^ (!a && b))

theorem chiRow_injective : ∀ a b c d e a' b' c' d' e' : Bool,
    chiRow a b c d e = chiRow a' b' c' d' e' → a = a' ∧ b = b' ∧ c = c' ∧ d = d' ∧ e = e' := by decide

/-- Bit `k` of lane `(x, y)` after CHI. -/
theorem chi_bit (A : Lanes) {x y k : Nat} (hx : x < 5) (hy : y < 5) (hk : k < 64) :
    (chi A)[x + 5 * y].getLsbD k =
      (A[x + 5 * y].getLsbD k ^^ (!(laneAt A (x + 1) y).getLsbD k && (laneAt A (x + 2) y).getLsbD k)) := by
  have e : (x + 5 * y) / 5 = y := by omega
  have e1 : laneAt A (x + 5 * y + 1) y = laneAt A (x + 1) y := by
    unfold laneAt
    congr 1
    omega
  have e2 : laneAt A (x + 5 * y + 2) y = laneAt A (x + 2) y := by
    unfold laneAt
    congr 1
    omega
  rw [chi_getElem, e, e1, e2]
  simp [hk]

theorem chi_injective {A B : Lanes} (h : chi A = chi B) : A = B := by
  refine Vector.ext fun i hi => BitVec.eq_of_getLsbD_eq fun k hk => ?_
  have hy : i / 5 < 5 := by omega
  have row : ∀ V : Lanes, chiRow (V[0 + 5 * (i / 5)].getLsbD k) (V[1 + 5 * (i / 5)].getLsbD k) (V[2 + 5 * (i / 5)].getLsbD k)
      (V[3 + 5 * (i / 5)].getLsbD k) (V[4 + 5 * (i / 5)].getLsbD k) =
      ((chi V)[0 + 5 * (i / 5)].getLsbD k, (chi V)[1 + 5 * (i / 5)].getLsbD k, (chi V)[2 + 5 * (i / 5)].getLsbD k,
        (chi V)[3 + 5 * (i / 5)].getLsbD k, (chi V)[4 + 5 * (i / 5)].getLsbD k) := by
    intro V
    have hy' : i / 5 % 5 = i / 5 := Nat.mod_eq_of_lt hy
    simp only [chi_bit V (by omega : 0 < 5) hy hk, chi_bit V (by omega : 1 < 5) hy hk, chi_bit V (by omega : 2 < 5) hy hk,
      chi_bit V (by omega : 3 < 5) hy hk, chi_bit V (by omega : 4 < 5) hy hk, laneAt, hy', chiRow]
  have := chiRow_injective _ _ _ _ _ _ _ _ _ _ ((row A).trans (by rw [h]; exact (row B).symm))
  have hm : i % 5 = 0 ∨ i % 5 = 1 ∨ i % 5 = 2 ∨ i % 5 = 3 ∨ i % 5 = 4 := by omega
  obtain ⟨h0, h1, h2, h3, h4⟩ := this
  rcases hm with e | e | e | e | e
  · have : i = 0 + 5 * (i / 5) := by omega
    simpa only [← this] using h0
  · have : i = 1 + 5 * (i / 5) := by omega
    simpa only [← this] using h1
  · have : i = 2 + 5 * (i / 5) := by omega
    simpa only [← this] using h2
  · have : i = 3 + 5 * (i / 5) := by omega
    simpa only [← this] using h3
  · have : i = 4 + 5 * (i / 5) := by omega
    simpa only [← this] using h4

/-! ### THETA, by column parities -/

/-- A trinomial in two shifts, on bits indexed by column and bit position. -/
def trinomial (a b n : Nat) (f : Nat → Nat → Bool) (x k : Nat) : Bool := f x k ^^ f (x + a) k ^^ f (x + b) (k + n)

/-- Squaring doubles the shifts: the cross terms cancel. -/
theorem trinomial_sq (a b n : Nat) (f : Nat → Nat → Bool) :
    trinomial a b n (trinomial a b n f) = trinomial (2 * a) (2 * b) (2 * n) f := by
  funext x k
  simp only [trinomial]
  rw [show x + b + a = x + a + b by omega, show x + a + a = x + 2 * a by omega, show x + b + b = x + 2 * b by omega,
    show k + n + n = k + 2 * n by omega]
  generalize f x k = u0
  generalize f (x + a) k = u1
  generalize f (x + b) (k + n) = u2
  generalize f (x + a + b) (k + n) = u3
  generalize f (x + 2 * a) k = u4
  generalize f (x + 2 * b) (k + 2 * n) = u5
  revert u0 u1 u2 u3 u4 u5
  decide

/-- The map THETA induces on column parities has order dividing 192 on bits of period 5 and 64. -/
theorem trinomial_injective {f g : Nat → Nat → Bool} (hf : ∀ x k, f (x % 5) (k % 64) = f x k)
    (hg : ∀ x k, g (x % 5) (k % 64) = g x k) (h : trinomial 4 1 63 f = trinomial 4 1 63 g) : f = g := by
  have up : ∀ n u v, trinomial 4 1 63 u = trinomial 4 1 63 v →
      trinomial (2 ^ n * 4) (2 ^ n * 1) (2 ^ n * 63) u = trinomial (2 ^ n * 4) (2 ^ n * 1) (2 ^ n * 63) v := by
    intro n
    induction n with
    | zero => intro u v huv; simpa using huv
    | succ n ih =>
      intro u v huv
      rw [show 2 ^ (n + 1) * 4 = 2 * (2 ^ n * 4) by ring, show 2 ^ (n + 1) * 1 = 2 * (2 ^ n * 1) by ring,
        show 2 ^ (n + 1) * 63 = 2 * (2 ^ n * 63) by ring, ← trinomial_sq, ← trinomial_sq, ih u v huv]
  have h6 := up 6 f g h
  have back : ∀ u : Nat → Nat → Bool, (∀ x k, u (x % 5) (k % 64) = u x k) → ∀ x k,
      trinomial (2 ^ 7 * 4) (2 ^ 7 * 1) (2 ^ 7 * 63) (trinomial (2 ^ 6 * 4) (2 ^ 6 * 1) (2 ^ 6 * 63) u) x k = u x k := by
    intro u hu x k
    have red : ∀ p q, u p q = u (p % 5) (q % 64) := fun p q => (hu p q).symm
    simp only [trinomial]
    rw [red x k, red (x + 2 ^ 6 * 4) k, red (x + 2 ^ 6 * 1) (k + 2 ^ 6 * 63), red (x + 2 ^ 7 * 4) k,
      red (x + 2 ^ 7 * 4 + 2 ^ 6 * 4) k, red (x + 2 ^ 7 * 4 + 2 ^ 6 * 1) (k + 2 ^ 6 * 63),
      red (x + 2 ^ 7 * 1) (k + 2 ^ 7 * 63), red (x + 2 ^ 7 * 1 + 2 ^ 6 * 4) (k + 2 ^ 7 * 63),
      red (x + 2 ^ 7 * 1 + 2 ^ 6 * 1) (k + 2 ^ 7 * 63 + 2 ^ 6 * 63)]
    rw [show (k + 2 ^ 6 * 63) % 64 = k % 64 by omega, show (k + 2 ^ 7 * 63) % 64 = k % 64 by omega,
      show (k + 2 ^ 7 * 63 + 2 ^ 6 * 63) % 64 = k % 64 by omega,
      show (x + 2 ^ 6 * 4) % 5 = (x + 1) % 5 by omega, show (x + 2 ^ 6 * 1) % 5 = (x + 4) % 5 by omega,
      show (x + 2 ^ 7 * 4) % 5 = (x + 2) % 5 by omega, show (x + 2 ^ 7 * 4 + 2 ^ 6 * 4) % 5 = (x + 3) % 5 by omega,
      show (x + 2 ^ 7 * 4 + 2 ^ 6 * 1) % 5 = (x + 1) % 5 by omega, show (x + 2 ^ 7 * 1) % 5 = (x + 3) % 5 by omega,
      show (x + 2 ^ 7 * 1 + 2 ^ 6 * 4) % 5 = (x + 4) % 5 by omega,
      show (x + 2 ^ 7 * 1 + 2 ^ 6 * 1) % 5 = (x + 2) % 5 by omega]
    generalize u (x % 5) (k % 64) = u0
    generalize u ((x + 1) % 5) (k % 64) = u1
    generalize u ((x + 2) % 5) (k % 64) = u2
    generalize u ((x + 3) % 5) (k % 64) = u3
    generalize u ((x + 4) % 5) (k % 64) = u4
    revert u0 u1 u2 u3 u4
    decide
  funext x k
  rw [← back f hf, h6, back g hg]

/-- Bit `k mod 64` of the parity of column `x`. -/
def parityBit (A : Lanes) (x k : Nat) : Bool := (columnParity A x).getLsbD (k % 64)

theorem columnParity_mod (A : Lanes) (x : Nat) : columnParity A (x % 5) = columnParity A x := by
  simp [columnParity, laneAt]

theorem thetaEffect_mod (A : Lanes) (x : Nat) : thetaEffect A (x % 5) = thetaEffect A x := by
  unfold thetaEffect
  rw [← columnParity_mod A (x % 5 + 4), ← columnParity_mod A (x % 5 + 1), ← columnParity_mod A (x + 4),
    ← columnParity_mod A (x + 1), show (x % 5 + 4) % 5 = (x + 4) % 5 by omega, show (x % 5 + 1) % 5 = (x + 1) % 5 by omega]

/-- THETA adds its effect to each column parity: five copies of it, which is one. -/
theorem columnParity_theta (A : Lanes) (x : Nat) : columnParity (theta A) x = columnParity A x ^^^ thetaEffect A x := by
  have hl : ∀ y, y < 5 → laneAt (theta A) x y = laneAt A x y ^^^ thetaEffect A x := by
    intro y hy
    unfold laneAt
    rw [theta_getElem, show (x % 5 + 5 * (y % 5)) % 5 = x % 5 by omega, thetaEffect_mod]
  unfold columnParity
  rw [hl 0 (by omega), hl 1 (by omega), hl 2 (by omega), hl 3 (by omega), hl 4 (by omega)]
  refine BitVec.eq_of_getLsbD_eq fun k hk => ?_
  simp only [BitVec.getLsbD_xor]
  generalize (laneAt A x 0).getLsbD k = u0
  generalize (laneAt A x 1).getLsbD k = u1
  generalize (laneAt A x 2).getLsbD k = u2
  generalize (laneAt A x 3).getLsbD k = u3
  generalize (laneAt A x 4).getLsbD k = u4
  generalize (thetaEffect A x).getLsbD k = d
  revert u0 u1 u2 u3 u4 d
  decide

theorem parityBit_theta (A : Lanes) : parityBit (theta A) = trinomial 4 1 63 (parityBit A) := by
  funext x k
  have hk : k % 64 < 64 := Nat.mod_lt _ (by omega)
  unfold parityBit trinomial
  rw [columnParity_theta, thetaEffect, BitVec.getLsbD_xor, BitVec.getLsbD_xor, rotl64_getLsbD _ (by omega) hk,
    show (k % 64 + (64 - 1)) % 64 = (k + 63) % 64 by omega]
  simp

theorem theta_injective {A B : Lanes} (h : theta A = theta B) : A = B := by
  have per : ∀ V x k, parityBit V (x % 5) (k % 64) = parityBit V x k := by
    intro V x k
    simp [parityBit, columnParity_mod]
  have hp : parityBit A = parityBit B := by
    refine trinomial_injective (per A) (per B) ?_
    rw [← parityBit_theta, ← parityBit_theta, h]
  have hc : ∀ x, columnParity A x = columnParity B x := by
    intro x
    refine BitVec.eq_of_getLsbD_eq fun k hk => ?_
    have := congrFun (congrFun hp x) k
    simpa [parityBit, Nat.mod_eq_of_lt hk] using this
  refine Vector.ext fun i hi => ?_
  have := congrArg (fun V : Lanes => V[i]) h
  simp only [theta_getElem, thetaEffect, hc] at this
  exact (BitVec.xor_left_inj _).1 this

end Sys2Proof.Machine
end

