-- ==== Sys2Proof/Laws/Sequencer.lean ====
section
/-! SUPPORT. What an edge of the sequencer, an accepting edge and a clock edge can do, each said once (guards included), so that
later proofs do not unfold them. -/

namespace Sys2Proof.Machine

/-! ### acceptance -/

theorem startAbsorb_consumed (data : Byte) {s : State} (hf : s.fin = true) :
    startAbsorb data s = startReply (.err .consumed) s := by simp [startAbsorb, absorbError, hf]

theorem startAbsorb_below (data : Byte) {s : State} (hf : s.fin = false) (h : s.cnt + 1 < rate s.mode) :
    startAbsorb data s = startReply .ack (pushed data s) := by
  simp only [startAbsorb, absorbError_none hf, bufPush_eq data (Nat.lt_of_succ_lt h)]
  exact if_neg (by show s.cnt + 1 ≠ rate s.mode; omega)

theorem startAbsorb_boundary (data : Byte) {s : State} (hf : s.fin = false) (h : s.cnt + 1 = rate s.mode) :
    startAbsorb data s = startBlock .block (pushed data s) := by
  have h1 : s.cnt < rate s.mode := by omega
  simp only [startAbsorb, absorbError_none hf, bufPush_eq data h1]
  exact if_pos h

theorem startAbsorb_overfull (data : Byte) {s : State} (hf : s.fin = false) (h : rate s.mode ≤ s.cnt) :
    startAbsorb data s = .fault .fillBeyondRate := by simp [startAbsorb, absorbError, hf, bufPush, Nat.not_lt.2 h]

theorem startFinal_invalid {size : Byte} {s : State} (h : s.mode.digestSize < size.toNat) :
    startFinal size s = startReply (.err .invalidArgument) s := by
  simp [startFinal, finalError, sizeExceeds, sizeOperand, h]

theorem startFinal_consumed {size : Byte} {s : State} (h : size.toNat ≤ s.mode.digestSize) (hf : s.fin = true) :
    startFinal size s = startReply (.err .consumed) s := by
  simp [startFinal, finalError, sizeExceeds, sizeOperand, Nat.not_lt.2 h, hf]

theorem startFinal_ok {size : Byte} {s : State} (h : size.toNat ≤ s.mode.digestSize) (hf : s.fin = false)
    (hc : s.cnt < rate s.mode) : startFinal size s = startBlock (.digest size) s := by
  simp [startFinal, finalError, sizeExceeds, sizeOperand, Nat.not_lt.2 h, hf, hc]

theorem startFinal_overfull {size : Byte} {s : State} (h : size.toNat ≤ s.mode.digestSize) (hf : s.fin = false)
    (hc : rate s.mode ≤ s.cnt) : startFinal size s = .fault .fillBeyondRate := by
  simp [startFinal, finalError, sizeExceeds, sizeOperand, Nat.not_lt.2 h, hf, Nat.not_lt.2 hc]

/-- What the word leaves of the state when only its completion word is left to emit. -/
def ReplyEffect (s u : State) : Prop :=
  u = s ∨ (∃ m, u = clearMessage { s with mode := m }) ∨
    ∃ data, u = pushed data s ∧ s.fin = false ∧ s.cnt + 1 < rate s.mode

/-- Everything an accepting edge can do, beside what the same word does atomically. -/
theorem startWord_cases {w : Word} {s t : State} (h : startWord w s = .next t) :
    (∃ r u, r.isCompletion = true ∧ ReplyEffect s u ∧ sendWord w s = .next (emit r u) ∧
      t = { u with phase := .respond, job := some (.reply r) }) ∨
    (∃ data, decode w = .ok (.absorb data) ∧ s.fin = false ∧ s.cnt + 1 = rate s.mode ∧
      sendWord w s = .next (emit .ack (blockBoundary (pushed data s))) ∧
      t = { pushed data s with phase := .xorb, job := some .block }) ∨
    (∃ size, decode w = .ok (.final size) ∧ size.toNat ≤ s.mode.digestSize ∧ s.fin = false ∧ s.cnt < rate s.mode ∧
      sendWord w s = .next (emit (.done size) (finalized size s)) ∧
      t = { s with phase := .xorb, job := some (.digest size) }) := by
  cases hd : decode w with
  | error e =>
    simp only [startWord, hd, startReply] at h
    cases h
    exact .inl ⟨.err .illegalCommand, s, rfl, .inl rfl, by simp [sendWord, hd, raiseErr], rfl⟩
  | ok i =>
    have hsend : sendWord w s = exec i s := by simp [sendWord, hd]
    simp only [startWord, hd] at h
    rw [hsend]
    cases i with
    | reset => cases h; exact .inl ⟨.ack, clearMessage s, rfl, .inr (.inl ⟨s.mode, rfl⟩), rfl, rfl⟩
    | init m => cases h; exact .inl ⟨.ack, _, rfl, .inr (.inl ⟨m, rfl⟩), rfl, rfl⟩
    | qdsz => cases h; exact .inl ⟨.val _, s, rfl, .inl rfl, rfl, rfl⟩
    | qrate => cases h; exact .inl ⟨.val _, s, rfl, .inl rfl, rfl, rfl⟩
    | absorb data =>
      simp only [startCommand] at h
      cases hf : s.fin with
      | true =>
        rw [startAbsorb_consumed data hf] at h
        cases h
        exact .inl ⟨_, s, rfl, .inl rfl, exec_absorb_consumed data hf, rfl⟩
      | false =>
        rcases Nat.lt_trichotomy (s.cnt + 1) (rate s.mode) with hc | hc | hc
        · rw [startAbsorb_below data hf hc] at h
          cases h
          exact .inl ⟨_, _, rfl, .inr (.inr ⟨data, rfl, hf, hc⟩), exec_absorb_below data hf hc, rfl⟩
        · rw [startAbsorb_boundary data hf hc] at h
          cases h
          exact .inr (.inl ⟨data, rfl, rfl, hc, exec_absorb_boundary data hf hc, rfl⟩)
        · rw [startAbsorb_overfull data hf (by omega)] at h
          cases h
    | final size =>
      simp only [startCommand] at h
      rcases Nat.lt_or_ge s.mode.digestSize size.toNat with hs | hs
      · rw [startFinal_invalid hs] at h
        cases h
        exact .inl ⟨_, s, rfl, .inl rfl, exec_final_invalid hs, rfl⟩
      · cases hf : s.fin with
        | true =>
          rw [startFinal_consumed hs hf] at h
          cases h
          exact .inl ⟨_, s, rfl, .inl rfl, exec_final_consumed hs hf, rfl⟩
        | false =>
          rcases Nat.lt_or_ge s.cnt (rate s.mode) with hc | hc
          · rw [startFinal_ok hs hf hc] at h
            cases h
            exact .inr (.inr ⟨size, rfl, hs, rfl, hc, exec_final_ok hs hf hc, by rw [hf]⟩)
          · rw [startFinal_overfull hs hf hc] at h
            cases h

/-! ### busy edges -/

/-- Everything an edge in XORB can do. -/
theorem xorbEdge_cases {s t : State} (h : xorbEdge s = .next t) :
    (∃ j, s.job = some j ∧ j.hasBlock = true) ∧ (s.job = some .block → s.cnt = rate s.mode) ∧
    (∀ size, s.job = some (.digest size) → s.cnt < rate s.mode) ∧
    t = enterPerm (xorBlock (lanesPerBlock s.mode) (blockInProgress s) s.lanes) s := by
  unfold xorbEdge at h
  split at h
  · rename_i hj
    split at h
    · rename_i hc
      refine ⟨⟨_, hj, rfl⟩, fun _ => hc, fun size hs => ?_, ?_⟩
      · rw [hj] at hs
        cases hs
      · rw [← Host.Outcome.next.inj h, show blockInProgress s = bufBytes s by simp only [blockInProgress, hj]]
    · cases h
  · rename_i size hj
    cases hb : padBlock s with
    | none =>
      rw [hb] at h
      cases h
    | some blk =>
      rw [hb] at h
      rw [padBlock, Option.ite_none_right_eq_some] at hb
      refine ⟨⟨_, hj, rfl⟩, fun hs => ?_, fun _ _ => hb.1, ?_⟩
      · rw [hj] at hs
        cases hs
      · have : blockInProgress s = blk := by
          simp only [blockInProgress, hj]
          exact Option.some.inj hb.2
        rw [← Host.Outcome.next.inj h, this]
  · cases h
  · cases h

/-- Everything an edge in PERM can do. -/
theorem permEdge_cases {s t : State} (h : permEdge s = .next t) :
    ∃ j, s.job = some j ∧ j.hasBlock = true ∧
      ((s.rnd + s.params.roundsPerCycle.count < Config.nRounds ∧
        t = { s with lanes := rounds s.rnd s.params.roundsPerCycle.count s.lanes,
                     rnd := s.rnd + s.params.roundsPerCycle.count }) ∨
       (s.rnd + s.params.roundsPerCycle.count = Config.nRounds ∧
        t = { s with lanes := rounds s.rnd s.params.roundsPerCycle.count s.lanes, phase := phaseAfterPerm j,
                     rnd := 0, sqi := 0 })) := by
  unfold permEdge at h
  simp only at h
  split at h
  · cases h
  · cases h
  · rename_i j hne hj
    have hb : j.hasBlock = true := by
      cases j with
      | reply r => exact (hne r rfl).elim
      | _ => rfl
    refine ⟨j, hj, hb, ?_⟩
    split at h
    · cases h
    · split at h
      · cases h
        exact .inr ⟨‹_›, rfl⟩
      · cases h
        exact .inl ⟨by omega, rfl⟩

/-- Everything an edge in SQZ can do. -/
theorem sqzEdge_cases {s t : State} (h : sqzEdge s = .next t) :
    ∃ size, s.job = some (.digest size) ∧ s.sqi < sizeOperand size ∧ sizeOperand size ≤ s.mode.digestSize ∧
      ((rqFull s = true ∧ t = s) ∨ (rqFull s = false ∧ t = squeezeOne size s)) := by
  unfold sqzEdge at h
  split at h
  · rename_i size hj
    split at h
    · rename_i hg
      cases h
      refine ⟨size, hj, hg.1, hg.2, ?_⟩
      cases rqFull s <;> simp
    · cases h
  all_goals cases h

/-- Everything an edge in RESPOND can do. -/
theorem respondEdge_cases {s t : State} (h : respondEdge s = .next t) :
    ∃ j, s.job = some j ∧
      ((rqFull s = true ∧ t = s) ∨ (rqFull s = false ∧ t = toIdle (emit j.completion (j.finish s)))) := by
  unfold respondEdge at h
  split at h
  · rename_i j hj
    cases h
    refine ⟨j, hj, ?_⟩
    cases rqFull s <;> simp
  · cases h

/-! ### what the invariant reads -/

theorem Job.fits_congr {s t : State} (j : Job) (hc : s.cnt = t.cnt) (hm : s.mode = t.mode) (hf : s.fin = t.fin) :
    j.fits s ↔ j.fits t := by cases j <;> simp [Job.fits, RestingFill, hc, hm, hf]

/-- A response keeps the queues made of response words. -/
theorem ResponsesInv.emit {s : State} (h : ResponsesInv s) (r : Rsp) : ResponsesInv (emit r s) := by
  intro w hw
  simp only [emit_taken, emit_rq, List.mem_append, List.mem_singleton] at hw
  rcases hw with hw | hw | rfl
  · exact h w (by simp [hw])
  · exact h w (by simp [hw])
  · simp

/-! ### the clock edge -/

theorem clockEdge_rst {p : Pins} (h : p.rst = true) (s : State) :
    clockEdge p s = .next { hardwareReset p.cfgMode s with offered := p.presented } := by simp [clockEdge, h]

theorem clockEdge_broken {p : Pins} {s : State} (hr : p.rst = false) (hb : holdBroken p s = true) :
    clockEdge p s = .refused .handshakeBroken := by simp [clockEdge, hr, hb]

theorem clockEdge_accept {p : Pins} {s : State} (hr : p.rst = false) (hb : holdBroken p s = false)
    (hi : s.phase = .idle) (hv : p.cmdValid = true) : clockEdge p s = startWord p.cmd (portEdge p s) := by
  simp [clockEdge, hr, hb, hi, hv]

theorem clockEdge_run {p : Pins} {s : State} (hr : p.rst = false) (hb : holdBroken p s = false)
    (hn : ¬(s.phase = .idle ∧ p.cmdValid = true)) : clockEdge p s = sequencerEdge (portEdge p s) := by
  unfold clockEdge
  rw [if_neg (by simp [hr]), if_neg (by simp [hb]), if_neg hn]

/-- Everything a clock edge can do when it answers a next state. -/
theorem clockEdge_cases {p : Pins} {s t : State} (h : clockEdge p s = .next t) :
    (p.rst = true ∧ t = { hardwareReset p.cfgMode s with offered := p.presented }) ∨
    (p.rst = false ∧ holdBroken p s = false ∧ s.phase = .idle ∧ p.cmdValid = true ∧
      startWord p.cmd (portEdge p s) = .next t) ∨
    (p.rst = false ∧ holdBroken p s = false ∧ ¬(s.phase = .idle ∧ p.cmdValid = true) ∧
      sequencerEdge (portEdge p s) = .next t) := by
  cases hr : p.rst with
  | true =>
    rw [clockEdge_rst hr] at h
    exact .inl ⟨rfl, by cases h; rfl⟩
  | false =>
    cases hb : holdBroken p s with
    | true =>
      rw [clockEdge_broken hr hb] at h
      cases h
    | false =>
      by_cases hn : s.phase = .idle ∧ p.cmdValid = true
      · rw [clockEdge_accept hr hb hn.1 hn.2] at h
        exact .inr (.inl ⟨rfl, rfl, hn.1, hn.2, h⟩)
      · rw [clockEdge_run hr hb hn] at h
        exact .inr (.inr ⟨rfl, rfl, hn, h⟩)

end Sys2Proof.Machine
end

