-- ==== Sys2Proof/Tests/Slice0.lean ====
section
/-! SUPPORT. Tests with results from outside the model (spec/95_test_vectors.md, the tables of 30_encoding.md and 60_exceptions.md),
the ill-formed assembler lines the check refuses, and for every statement with hypotheses a witness that meets them. -/

namespace Sys2Proof.Machine.Tests

/-! ## Helpers -/

/-- A state at a command boundary, lanes zero and BUF all zero bytes (an all-zero BUF lists nothing). -/
def at256 (rule : PadRule) (fin : Bool) (cnt : Nat) : State :=
  { State.resetOf ⟨rule, .r1, 1⟩ .p256 with fin := fin, cnt := cnt }

/-- The same in preset 256 with BUF = "abc". -/
def abc : State := { at256 .lone80 false 3 with buf := [(0, 0x61), (1, 0x62), (2, 0x63)] }

/-- An engine in a busy phase. -/
def busy (ph : Phase) (j : Job) (cnt : Nat) : State := { at256 .lone80 false cnt with phase := ph, job := some j }

/-- Lanes that are zero but for some. -/
def lanesOf (l : List (Nat × Lane)) : Lanes := Vector.ofFn fun i => (l.lookup i.val).getD 0

/-- The words a result appended to an empty RQ. -/
def words : Result → List Word
  | .next t => t.rq
  | .fault _ | .refused _ => []

/-- The next state, if there is one. -/
def next? : Result → Option State
  | .next t => some t
  | .fault _ | .refused _ => none

/-- CNT and FIN of a result. -/
def fill : Result → Option (Nat × Bool)
  | .next t => some (t.cnt, t.fin)
  | .fault _ | .refused _ => none

/-! ## Well-formedness: the check refuses each ill-formed line (R53, R54) -/

theorem test_wf_init_name : (Asm.init 255).wf = false := by decide
theorem test_wf_absorb_range : (Asm.absorb 256).wf = false := by decide
theorem test_wf_final_range : (Asm.final 256).wf = false := by decide
theorem test_wf_word_range : (Asm.word 65536).wf = false := by decide
theorem test_wf_update_range : (Asm.update [0, 256]).wf = false := by decide
theorem test_wf_update_text : (Asm.updateText "é").wf = false := by decide
theorem test_wf_hash_name : (Asm.hash 1 [0]).wf = false := by decide
theorem test_wf_hash_byte : (Asm.hash 256 [300]).wf = false := by decide
theorem test_wf_good : [Asm.init 384, .absorb 255, .final 255, .word 65535, .updateText "abc", .hash 512 [0, 255]].all Asm.wf = true := by
  decide

/-! ## Decoding: 95_test_vectors.md section 5.1, the words written out from R45 to R47 -/

theorem test_decode_reset : decode 0b0001000000000000#16 = .ok .reset := by decide
theorem test_decode_init : decode 0b0010000000000011#16 = .ok (.init .p512) := by decide
theorem test_decode_absorb : decode 0b0011000010000000#16 = .ok (.absorb 0x80#8) := by decide
theorem test_decode_final : decode 0b0100000011111111#16 = .ok (.final 255#8) := by decide
theorem test_decode_qdsz : decode 0b0101000000000000#16 = .ok .qdsz := by decide
theorem test_decode_qrate : decode 0b0110000000000000#16 = .ok .qrate := by decide
theorem test_decode_illegal :
    [0x0000#16, 0xFFFF#16, 0x7000#16, 0x1001#16, 0x2004#16, 0x20FF#16, 0x3100#16, 0x4F20#16, 0x5001#16, 0x6080#16, 0x8000#16].all
      (fun w => !isLegal w) = true := by decide
theorem test_table_word : decodeTableWord 16 0x2003 = some (.init .p512) ∧ decodeTableWord 16 0x2004 = none := by decide
/-- R54: HASH 256 of "abc" is INIT, three ABSORB, FINAL 32. -/
theorem test_assemble_hash : assemble .p224 [.hash 256 [0x61, 0x62, 0x63]] = [0x2001, 0x3061, 0x3062, 0x3063, 0x4020] := by decide

/-! ## The steps of a round: 95_test_vectors.md sections 2 and 3.1 -/

/-- T4, the dense THETA vector. -/
theorem test_theta_dense : (theta (Vector.ofFn fun i => BitVec.ofNat 64 (i.val + 1))).toList =
    [0x10, 0x0D, 0x1D, 0x1D, 0x1F, 0x17, 0x08, 0x16, 0x10, 0x10, 0x1A, 0x03, 0x13, 0x17, 0x15,
     0x01, 0x1E, 0x0C, 0x0A, 0x0E, 0x04, 0x19, 0x09, 0x01, 0x03] := by decide
/-- T2, bit 63 wraps to bit 0. -/
theorem test_theta_wrap : (theta (lanesOf [(7, 0x8000000000000000)])).toList.take 10 =
    [0, 1, 0, 0x8000000000000000, 0, 0, 1, 0x8000000000000000, 0x8000000000000000, 0] := by decide
/-- H3, offsets 0, 1 and 62. -/
theorem test_rho : (rho (Vector.replicate 25 0x0123456789ABCDEF)).toList.take 3 =
    [0x0123456789ABCDEF, 0x02468ACF13579BDE, 0xC048D159E26AF37B] := by decide
/-- P1. -/
theorem test_pi : (piStep (Vector.ofFn fun i => BitVec.ofNat 64 i.val)).toList =
    [0, 6, 12, 18, 24, 3, 9, 10, 16, 22, 1, 7, 13, 19, 20, 4, 5, 11, 17, 23, 2, 8, 14, 15, 21] := by decide
/-- X1. -/
theorem test_chi : (chi (lanesOf [(0, 0x1), (1, 0x3), (2, 0x5), (3, 0x9), (4, 0x11)])).toList.take 6 =
    [0x5, 0xB, 0x15, 0x9, 0x13, 0] := by decide
/-- I3. -/
theorem test_iota : (iota (lanesOf [(0, 0xFFFFFFFFFFFFFFFF)]) 23)[0] = 0x7FFFFFFF7FFF7FF7 := by
  decide +kernel
/-- Section 3.1, rounds 0 and 1 from the zero state. -/
theorem test_round : (keccakRound (keccakRound zeroLanes 0) 1).toList =
    [0x8083, 0x100000000000, 0x8000, 1, 0x100000008000, 0, 0x200000200000, 0, 0x200000000000, 0x200000,
     2, 0x200, 0, 0x202, 0, 0x10000400, 0, 0x400, 0x10000000, 0, 0x10000000000, 0, 0x10000000004, 0, 4] := by decide +kernel

/-! ## The internal operations: section 4.1 -/

/-- B1. -/
theorem test_xorBlock : (xorBlock 17 ((List.range 136).map (BitVec.ofNat 8)) zeroLanes)[16] = 0x8786858483828180 ∧
    (xorBlock 17 ((List.range 136).map (BitVec.ofNat 8)) zeroLanes)[17] = 0 := by decide +kernel
/-- B2, 135 buffered zero bytes: the pad byte is the last byte of the block, `0x80` or `0x81`. -/
theorem test_padBlock_last :
    ((padBlock (at256 .lone80 false 135)).map fun b => (xorBlock 17 b zeroLanes)[16]) = some 0x8000000000000000 ∧
    ((padBlock (at256 .pad10star1 false 135)).map fun b => (xorBlock 17 b zeroLanes)[16]) = some 0x8100000000000000 := by
  decide +kernel
/-- B2, "abc". -/
theorem test_padBlock_abc : ((padBlock abc).map fun b => (xorBlock 17 b zeroLanes)[0]) = some 0x0000000080636261 := by
  decide +kernel
/-- B3, the partial lane of a 28-byte digest. -/
theorem test_squeeze : (squeeze (lanesOf [(3, 0xB51D50768FF51E30)]) 28).drop 24 =
    [.data 0x30, .data 0x1E, .data 0xF5, .data 0x8F] := by decide

/-! ## The commands: sections 4.2, 4.3, 5.2 to 5.4 -/

/-- Section 4.5, empty message, LONE_80: FINAL 0 answers DONE 0 only; CNT 0, FIN 1. -/
theorem test_final_size_zero :
    (fun r => (words r, fill r)) (exec (.final 0) (at256 .lone80 false 0)) = ([0x3000], some (0, true)) := by decide +kernel
/-- Section 4.5, empty message, PAD10STAR1: c5 d2 46 01, the start of D0's literal. The one test that runs all 24 rounds. -/
theorem test_final_pad10star1 :
    words (exec (.final 4) (at256 .pad10star1 false 0)) = [0x20C5, 0x20D2, 0x2046, 0x2001, 0x3004] := by decide +kernel
/-- R74 example, preset 256: the 135th byte leaves CNT = 135 and the lanes zero. -/
theorem test_absorb_last_but_one :
    next? (exec (.absorb 0xAA) (at256 .lone80 false 134)) =
      some { at256 .lone80 false 135 with buf := [(134, 0xAA)], rq := [0x1000] } := by decide
/-- Section 5.4: ABSORB of a consumed instance. -/
theorem test_absorb_consumed : words (exec (.absorb 0x61) (at256 .lone80 true 0)) = [0xF003] := by decide
/-- Section 5.4: RESET of a consumed instance keeps MODE and clears FIN. -/
theorem test_reset : next? (exec .reset { abc with fin := true, lanes := lanesOf [(24, 1)] }) =
    some { at256 .lone80 false 0 with rq := [0x1000] } := by decide
/-- Section 5.4: INIT 512. -/
theorem test_init : next? (exec (.init .p512) { abc with lanes := lanesOf [(24, 1)] }) =
    some { at256 .lone80 false 0 with mode := .p512, rq := [0x1000] } := by decide
/-- Section 5.2. -/
theorem test_qdsz : [Preset.p224, .p256, .p384, .p512].map (fun m => words (exec .qdsz { abc with mode := m })) =
    [[0x401C], [0x4020], [0x4030], [0x4040]] := by decide
theorem test_qrate : [Preset.p224, .p256, .p384, .p512].map (fun m => words (exec .qrate { abc with mode := m })) =
    [[0x4090], [0x4088], [0x4068], [0x4048]] := by decide
/-- Section 5.4, the priority of errors on a consumed instance of preset 256. -/
theorem test_error_priority :
    [0x4021#16, 0x4020#16, 0x4000#16, 0x3161#16, 0x4121#16].map (fun w => words (sendWord w (at256 .lone80 true 0))) =
      [[0xF001], [0xF003], [0xF003], [0xF002], [0xF002]] := by decide
/-- Section 5.4: a failing FINAL changes nothing but RQ. -/
theorem test_error_entry : next? (exec (.final 33) abc) = some { abc with rq := [0xF001] } := by decide

/-! ## Steps -/

/-- R44: a sent word is accepted in IDLE and the move is gone. -/
theorem test_step_send : next? (step (abc.withFetchWord 16 0x5000)) = some { abc with rq := [0x4020] } := by decide
/-- R100: `rst` at an edge, whatever the phase. -/
theorem test_step_reset_edge :
    next? (step { busy .respond .block 136 with
        inbox := [.edge ⟨true, .p384, true, 0x1000, true⟩], rq := [0x1000], taken := [0x4020] }) =
      some { State.resetOf ⟨.lone80, .r1, 1⟩ .p384 with offered := some 0x1000, taken := [0x4020] } := by decide
/-- R104: RESPOND holds while RQ is full. -/
theorem test_step_stall :
    next? (step { busy .respond (.reply .ack) 3 with rq := [0x4020] }) = some { busy .respond (.reply .ack) 3 with rq := [0x4020] } := by
  decide

/-! ## Witnesses: the hypotheses of each statement can be met, clause by clause, at the ends of their ranges -/

theorem idle_inv (rule : PadRule) {cnt : Nat} (h : cnt < 136) : EngineInv (at256 rule false cnt) := by
  refine ⟨⟨Memory.nil_wf, by simp [at256, State.resetOf]⟩, ?_, by simp [ResponsesInv, at256, State.resetOf], Nat.one_pos⟩
  refine ⟨rfl, ⟨h, fun hf => ?_⟩, rfl, rfl⟩
  cases hf

theorem busy_inv {ph : Phase} {j : Job} {cnt : Nat} (h : PhaseInv (busy ph j cnt)) : EngineInv (busy ph j cnt) :=
  ⟨⟨Memory.nil_wf, by simp [busy, at256, State.resetOf]⟩, h, by simp [ResponsesInv, busy, at256, State.resetOf],
    Nat.one_pos⟩

theorem respond_inv : EngineInv (busy .respond (.reply .ack) 3) := by
  refine busy_inv ⟨⟨_, rfl, rfl, by decide, fun hf => ?_⟩, rfl, rfl⟩
  cases hf

theorem sqz_open : Job.squeezesFrom 0 (.digest 32) := by
  show 0 < sizeOperand 32
  decide

theorem sqz_inv : EngineInv (busy .sqz (.digest 32) 3) := by
  exact busy_inv ⟨⟨_, rfl, sqz_open, by decide, by decide, rfl⟩, rfl⟩

theorem perm_inv : EngineInv { busy .perm .block 136 with rnd := 23 } := by
  refine ⟨⟨Memory.nil_wf, by simp [busy, at256, State.resetOf]⟩, ?_, by simp [ResponsesInv, busy, at256, State.resetOf], by decide⟩
  exact ⟨⟨_, rfl, rfl, rfl, rfl⟩, by decide, by decide, rfl⟩

theorem witness_EncodeOfDecodeIsTheWord : decode 0x40FF#16 = .ok (.final 255) := by decide

theorem witness_OpcodeMapRowsAreDisjoint :
    decode 0x2003#16 = .ok (.init .p512) ∧ decode 0x2004#16 = .error .initArgHighNotZero := by decide

theorem witness_IllegalWordsAreCountedAndRefused :
    isLegal 0x2004#16 = false ∧ isLegal (Pins.offer 0x7000).cmd = false ∧ abc.phase = .idle ∧ abc.offered = none ∧
    (Pins.offer 0x7000).rst = false ∧ (Pins.offer 0x7000).cmdValid = true := by decide

theorem witness_ResponseWordsReadBack : Rsp.ofWord 0xF003#16 = some (.err .consumed) := by decide

theorem witness_AssemblerLinesExpandToCommands :
    (Asm.hash 224 [0, 255]).wf = true ∧ (∀ w, Asm.hash 224 [0, 255] ≠ .word w) ∧
    0x2000#16 ∈ (Asm.hash 224 [0, 255]).words .p512 := by
  refine ⟨by decide, fun w h => ?_, by decide⟩
  cases h

theorem witness_RotationMovesEveryBit : 63 < 64 ∧ (rotl64 0x8000000000000000 1).getLsbD ((63 + 1) % 64) = true := by decide

theorem witness_ThetaMixesTwoColumnParities :
    ∃ (A : Lanes) (C : Nat → Lane),
      ∀ (x : Nat) (h : x < 5), C x = A[x] ^^^ A[x + 5] ^^^ A[x + 10] ^^^ A[x + 15] ^^^ A[x + 20] :=
  ⟨zeroLanes, fun _ => 0, fun x _ => by simp [zeroLanes]⟩

theorem witness_RhoRotatesEachLane : 24 < 25 ∧ (rho (lanesOf [(24, 1)]))[24] = 0x4000 := by decide

theorem witness_PiMovesEachLane : 4 < 5 ∧ (piStep (lanesOf [(24, 7)]))[4 + 5 * ((2 * 4 + 3 * 4) % 5)] = 7 := by decide

theorem witness_ChiCombinesARow : 4 < 5 ∧ (chi (lanesOf [(24, 1)]))[24] = 1 := by decide

theorem witness_IotaChangesLaneZeroOnly : 23 < 24 ∧ 0 < 24 ∧ 24 < 25 ∧ (iota (lanesOf [(24, 5)]) 23)[24] = 5 := by decide

theorem witness_RoundFromZeroIsTheConstant : 0 < 24 ∧ 23 < 24 ∧ (keccakRound zeroLanes 23)[0] = 0x8000000080008008 := by
  decide +kernel

theorem witness_PermPhaseRunsThePermutation :
    (busy .perm (.digest 0) 3).phase = .perm ∧ (busy .perm (.digest 0) 3).rnd = 0 ∧
    (busy .perm (.digest 0) 3).job = some (.digest 0) ∧ Job.hasBlock (.digest 0) = true ∧ Job.hasBlock .block = true ∧
    (busy .perm (.digest 0) 3).offered = none ∧
    23 < 24 / (busy .perm (.digest 0) 3).params.roundsPerCycle.count := by decide

theorem witness_ByteViewReadsTheLanes :
    199 < 200 ∧ stByte (lanesOf [(24, 0x8000000000000000)]) 199 = 0x80 ∧ stRead (lanesOf [(24, 0x8000000000000000)]) 198 2 = [0, 0x80] := by
  decide

theorem witness_XorBlockChangesTheRateBytesOnly :
    (List.replicate 136 (0xFF#8)).length = rate .p256 ∧ 135 < rate .p256 ∧ ¬ 136 < rate .p256 ∧ 136 < 200 :=
  ⟨List.length_replicate, by decide, by decide, by decide⟩

theorem witness_PadBlockFitsInOneBlock :
    (at256 .lone80 false 135).cnt < rate (at256 .lone80 false 135).mode ∧
    (at256 .pad10star1 false 0).cnt < rate (at256 .pad10star1 false 0).mode := by decide

theorem witness_SqueezeEmitsLowLanesLittleEndian :
    64 ≤ Preset.p512.digestSize ∧ (∀ (i : Nat) (_ : i < 8), (lanesOf [(8, 1)])[i] = zeroLanes[i]) ∧
    lanesOf [(8, 1)] ≠ zeroLanes := by
  refine ⟨by decide, fun i h => ?_, by decide⟩
  revert i
  decide

theorem witness_InitWritesModeThenClears : ∃ t, exec (.init .p512) abc = .next t ∧ t.mode ≠ abc.mode :=
  ⟨_, rfl, by decide⟩

theorem witness_AbsorbStoresOneByteOrEndsABlock :
    Memory.wf abc.buf ∧ abc.cnt < rate abc.mode ∧ abc.fin = false ∧ abc.cnt + 1 < rate abc.mode ∧
    ((at256 .lone80 true 0).fin = true ∧ (at256 .lone80 true 0).cnt < rate .p256) ∧
    ((at256 .lone80 false 134).cnt + 1 < rate .p256) ∧
    ((at256 .lone80 false 135).cnt + 1 = rate .p256 ∧ (at256 .lone80 false 135).cnt < rate .p256) := by decide

theorem witness_FinalPadsPermutesAndSqueezes :
    abc.cnt < rate abc.mode ∧ abc.mode.digestSize < (33#8).toNat ∧ (32#8).toNat ≤ abc.mode.digestSize ∧
    (0#8).toNat ≤ abc.mode.digestSize ∧ abc.fin = false ∧ (at256 .lone80 true 0).fin = true := by decide

theorem witness_ConsumedUntilResetOrInit :
    (at256 .lone80 true 0).fin = true ∧ (32#8).toNat ≤ (at256 .lone80 true 0).mode.digestSize ∧ abc.fin = false ∧
    (∃ t, exec (.absorb 1) abc = .next t) ∧ (∃ t, exec .reset (at256 .lone80 true 0) = .next t) ∧
    (∃ t, exec (.init .p224) (at256 .lone80 true 0) = .next t) ∧ (∃ t, exec .qdsz (at256 .lone80 true 0) = .next t) ∧
    (∃ t, exec .qrate (at256 .lone80 true 0) = .next t) :=
  ⟨by decide, by decide, by decide, ⟨_, rfl⟩, ⟨_, rfl⟩, ⟨_, rfl⟩, ⟨_, rfl⟩, ⟨_, rfl⟩⟩

theorem witness_ErrorEntryChangesNothing :
    wordError 0x4121#16 (at256 .lone80 true 0) = some .illegalCommand ∧
    wordError 0x4021#16 (at256 .lone80 true 0) = some .invalidArgument ∧
    wordError 0x4020#16 (at256 .lone80 true 0) = some .consumed ∧ AtBoundary (at256 .lone80 true 0) ∧
    (at256 .lone80 true 0).rq.length < (at256 .lone80 true 0).params.rspDepth ∧
    wordError 0x4020#16 abc = none ∧ abc.cnt < rate abc.mode :=
  ⟨by decide, by decide, by decide, ⟨rfl, rfl, rfl, rfl, rfl⟩, by decide, by decide, by decide⟩

theorem witness_FailingCommandFailsAgain :
    (∃ t, sendWord 0x4021#16 abc = .next t ∧ wordError 0x4021#16 abc = some .invalidArgument) ∧
    abc.mode.digestSize < (33#8).toNat ∧ (∃ t, exec (.final 33) abc = .next t) ∧ ∃ u, exec (.final 32) abc = .next u :=
  ⟨⟨_, rfl, by decide⟩, by decide, ⟨_, rfl⟩, ⟨_, exec_final_ok (by decide) rfl (by decide)⟩⟩

theorem witness_CommandsThatNeverFail : (at256 .lone80 false 135).fin = false ∧ (at256 .lone80 false 135).cnt < rate .p256 := by
  decide

theorem witness_OneCompletionWordPerCommand : (at256 .lone80 false 135).cnt < rate (at256 .lone80 false 135).mode := by decide

theorem witness_CommandFrame :
    (∃ t, exec (.absorb 9) abc = .next t) ∧ Memory.wf abc.buf ∧ abc.cnt + 1 ≠ rate abc.mode ∧
    (∃ t, exec (.final 32) abc = .next t ∧ t.fin ≠ abc.fin) ∧ ∃ t, exec .qrate abc = .next t :=
  ⟨⟨_, rfl⟩, by decide, by decide, ⟨_, exec_final_ok (by decide) rfl (by decide), by simp [abc, at256]⟩, ⟨_, rfl⟩⟩

theorem witness_CommandsStopOnlyOnAnOverfullBuffer :
    exec (.absorb 0) (at256 .lone80 false 136) = .fault .fillBeyondRate ∧
    exec (.final 32) (at256 .lone80 false 136) = .fault .fillBeyondRate := ⟨rfl, rfl⟩

theorem witness_StepRunsTheDecodedCommand :
    ({ abc with inbox := [.send 0x3000] } : State).inbox = [.send 0x3000] ∧ abc.phase = .idle ∧ abc.offered = none ∧
    ({ abc with offered := some 0x3000 } : State).offered = some 0x3000 ∧ decode 0x3000#16 = .ok (.absorb 0) ∧
    decode 0x0000#16 = .error .unassignedOp ∧ (busy .perm .block 136).phase ≠ .idle := by decide

theorem witness_TakeRemovesTheHead :
    ({ abc with inbox := [.take], rq := [0x1000, 0x4020] } : State).rq = [0x1000, 0x4020] ∧
    ({ abc with inbox := [.take] } : State).rq = [] := by decide

theorem witness_IdleEngineHoldsItsState :
    abc.phase = .idle ∧ abc.offered = none ∧ abc.inbox = [] ∧ Pins.quiet.rst = false ∧ Pins.quiet.cmdValid = false ∧
    Pins.quiet.rspReady = false := by decide

theorem witness_HardwareResetFromAnyState :
    (⟨true, .p512, true, 0x3000, true⟩ : Pins).rst = true ∧
    ({ busy .sqz (.digest 32) 3 with inbox := [.hwReset .p384] } : State).inbox = [.hwReset .p384] := by decide

theorem witness_OnlyInitAndHardwareResetWriteMode :
    (∃ t, step { abc with inbox := [.send 0x2003] } = .next t) ∧ (∃ t, step { abc with inbox := [.hwReset .p512] } = .next t) ∧
    (∃ t, step { abc with inbox := [.edge (Pins.offer 0x2003)] } = .next t) ∧
    ∃ t, step { abc with inbox := [.edge { Pins.quiet with rst := true, cfgMode := .p512 }] } = .next t :=
  ⟨⟨_, rfl⟩, ⟨_, rfl⟩, ⟨_, rfl⟩, ⟨_, rfl⟩⟩

theorem witness_FinRisesOnlyByASuccessfulFinal :
    (∃ t, step { busy .respond (.digest 32) 3 with inbox := [] } = .next t ∧ (busy .respond (.digest 32) 3).fin = false ∧
      t.fin = true) ∧
    (∃ t, step { at256 .lone80 true 0 with inbox := [.send 0x1000] } = .next t ∧ t.fin = false) ∧
    (∃ t, step { at256 .lone80 true 0 with inbox := [.hwReset .p224] } = .next t ∧ t.fin = false) ∧
    (∃ t, step { at256 .lone80 true 0 with inbox := [.edge { Pins.quiet with rst := true }] } = .next t ∧ t.fin = false) ∧
    ∃ t, step { at256 .lone80 true 0 with inbox := [.edge (Pins.offer 0x2000)] } = .next t ∧ t.fin = false :=
  ⟨⟨_, rfl, rfl, rfl⟩, ⟨_, rfl, rfl⟩, ⟨_, rfl, rfl⟩, ⟨_, rfl, rfl⟩, ⟨_, rfl, rfl⟩⟩

theorem witness_ResetStateMeetsTheInvariant : 0 < (⟨.pad10star1, .r24, 1⟩ : Params).rspDepth := by decide

theorem witness_StepKeepsTheInvariant :
    (EngineInv (at256 .lone80 false 135) ∧ ∃ t, step (at256 .lone80 false 135) = .next t) ∧
    (EngineInv { busy .perm .block 136 with rnd := 23 } ∧ ∃ t, step { busy .perm .block 136 with rnd := 23 } = .next t) ∧
    (EngineInv (busy .sqz (.digest 32) 3) ∧ ∃ t, step (busy .sqz (.digest 32) 3) = .next t) :=
  ⟨⟨idle_inv _ (by decide), ⟨_, rfl⟩⟩, ⟨perm_inv, ⟨_, rfl⟩⟩, ⟨sqz_inv, ⟨_, rfl⟩⟩⟩

theorem witness_InvariantStatesNeverFault : EngineInv (busy .respond (.reply .ack) 3) ∧ Safe (busy .respond (.reply .ack) 3) :=
  ⟨respond_inv, ⟨_, rfl⟩⟩

theorem witness_ClockEdgeRefinesOneCommand :
    (EngineInv (at256 .lone80 false 0) ∧ cmdReady (Pins.offer 0x5000) (at256 .lone80 false 0) = true ∧
      ∃ t, clockEdge (Pins.offer 0x5000) (at256 .lone80 false 0) = .next t) ∧
    (EngineInv (busy .sqz (.digest 32) 3) ∧ cmdReady Pins.quiet (busy .sqz (.digest 32) 3) = false ∧
      ∃ t, clockEdge Pins.quiet (busy .sqz (.digest 32) 3) = .next t) :=
  ⟨⟨idle_inv _ (by decide), by decide, ⟨_, rfl⟩⟩, ⟨sqz_inv, by decide, ⟨_, rfl⟩⟩⟩

theorem witness_PinRunRefinesCommandRun :
    EngineInv (at256 .lone80 false 0) ∧ (at256 .lone80 false 0).phase = .idle ∧
    (∀ p ∈ [Pins.offer 0x5000, Pins.quiet, { Pins.quiet with rspReady := true }], p.rst = false) ∧
    (∃ t, runEdges [Pins.offer 0x5000, Pins.quiet, { Pins.quiet with rspReady := true }] (at256 .lone80 false 0) = .next t) ∧
    acceptedWords [Pins.offer 0x5000, Pins.quiet, { Pins.quiet with rspReady := true }] (at256 .lone80 false 0) = [0x5000] :=
  ⟨idle_inv _ (by decide), rfl, by decide, ⟨_, rfl⟩, by decide⟩

/-- A boundary state one byte below the block boundary, 4 rounds a clock, RQ full. -/
def fullAt135 : State := { at256 .lone80 false 135 with params := ⟨.lone80, .r4, 1⟩, rq := [0x1000] }

theorem witness_CommandTakesTheTabledClocks :
    EngineInv fullAt135 ∧ AtBoundary fullAt135 ∧ fullAt135.rq.length ≤ fullAt135.params.rspDepth ∧
    commandClocks (.absorb 0) fullAt135 = 8 ∧ commandClocks (.final 32) fullAt135 = 40 ∧ commandClocks .qdsz fullAt135 = 1 := by
  refine ⟨⟨⟨Memory.nil_wf, by simp [fullAt135, at256, State.resetOf]⟩, ⟨rfl, ⟨by decide, fun h => ?_⟩, rfl, rfl⟩, ?_, by decide⟩,
    ⟨rfl, rfl, rfl, rfl, rfl⟩, by decide, by decide, by decide, by decide⟩
  · cases h
  · simp [ResponsesInv, fullAt135, at256, State.resetOf]
    decide

theorem witness_ResponseQueueKeepsOrder :
    (∃ t, clockEdge { Pins.quiet with rspReady := true } { busy .sqz (.digest 32) 3 with rq := [0x1000] } = .next t) ∧
    ({ busy .sqz (.digest 32) 3 with rq := [0x1000] } : State).rq ≠ [] ∧
    ∃ t, clockEdge Pins.quiet (busy .sqz (.digest 32) 3) = .next t :=
  ⟨⟨_, rfl⟩, by decide, ⟨_, rfl⟩⟩

theorem witness_FullQueueStallsTheEngine :
    EngineInv { busy .sqz (.digest 32) 3 with rq := [0x1000] } ∧
    ({ busy .sqz (.digest 32) 3 with rq := [0x1000] } : State).params.rspDepth ≤ 1 ∧
    (busy .sqz (.digest 32) 3).offered = none ∧ Pins.quiet.rspReady = false := by
  refine ⟨⟨⟨Memory.nil_wf, by simp [busy, at256, State.resetOf]⟩, ⟨⟨_, rfl, sqz_open, by decide, by decide, rfl⟩, rfl⟩, ?_,
    by decide⟩, by decide, rfl, rfl⟩
  simp [ResponsesInv, busy, at256, State.resetOf]
  decide

theorem witness_BusyEngineIgnoresTheCommandPort :
    (busy .respond .block 136).phase ≠ .idle ∧ (busy .respond .block 136).offered = none ∧ Pins.quiet.rst = false ∧
    ∃ t, clockEdge Pins.quiet (busy .respond .block 136) = .next t :=
  ⟨by decide, rfl, rfl, ⟨_, rfl⟩⟩

theorem witness_PhasesIgnoreMessageData :
    ∃ t t', clockEdge (Pins.offer 0x3000) abc = .next t ∧ clockEdge (Pins.offer 0x30FF) { abc with buf := [] } = .next t' ∧
      decode (Pins.offer 0x3000).cmd = .ok (.absorb 0) ∧ decode (Pins.offer 0x30FF).cmd = .ok (.absorb 0xFF) ∧
      abc.cnt = ({ abc with buf := [] } : State).cnt ∧ abc.offered = none :=
  ⟨_, _, rfl, rfl, by decide, by decide, rfl, rfl⟩

theorem witness_OnlyABrokenHandshakeIsRefused :
    clockEdge Pins.quiet { abc with offered := some 0x5000 } = .refused .handshakeBroken := rfl

theorem witness_BoundaryStateAfterAMessage : Fresh (at256 .lone80 false 0) := ⟨rfl, rfl, rfl, rfl⟩

theorem witness_EngineComputesTheSponge :
    Fresh (at256 .pad10star1 false 0) ∧ (32#8).toNat ≤ (at256 .pad10star1 false 0).mode.digestSize ∧
    (∃ t, exec .reset abc = .next t) ∧ ∃ t, exec (.init .p512) abc = .next t :=
  ⟨⟨rfl, rfl, rfl, rfl⟩, by decide, ⟨_, rfl⟩, ⟨_, rfl⟩⟩

theorem witness_QueriesDoNotDisturbTheMessage :
    ∃ t, runCommands [.qdsz, .absorb 1, .qrate, .absorb 2] (at256 .lone80 false 0) = .next t :=
  ⟨_, rfl⟩

theorem witness_TruncatedDigestIsAPrefix :
    (0#8).toNat < (32#8).toNat ∧ (32#8).toNat ≤ abc.mode.digestSize ∧ abc.fin = false ∧
    (∃ t, exec (.final 0) abc = .next t) ∧ ∃ u, exec (.final 32) abc = .next u :=
  ⟨by decide, by decide, rfl, ⟨_, exec_final_ok (by decide) rfl (by decide)⟩, ⟨_, exec_final_ok (by decide) rfl (by decide)⟩⟩

theorem witness_DigestDependsOnTheMessageAlone :
    (28#8).toNat ≤ Preset.p224.digestSize ∧ abc.params = (at256 .lone80 true 0).params ∧
    abc.rq = (at256 .lone80 true 0).rq ∧ abc ≠ at256 .lone80 true 0 := by decide

end Sys2Proof.Machine.Tests
end

section
/-! PROOFS. Scope (spec/00_scope.md): rotation bit by bit, and progress: from a state that meets the invariant a step answers a next
state unless the host has not held the word it presented. -/

namespace Sys2Proof.Machine

/-! ### rotation (R6, R56) -/

@[simp] theorem rotl64_zero (a : Lane) : rotl64 a 0 = a := if_pos rfl

/-- Rotating left by `n` moves bit `k` to bit `k + n`, counted modulo 64. -/
theorem rotl64_getLsbD_add_mod (a : Lane) {n k : Nat} (hn : n < 64) (hk : k < 64) :
    (rotl64 a n).getLsbD ((k + n) % 64) = a.getLsbD k := by
  have hsrc : ((k + n) % 64 + (64 - n)) % 64 = k := by omega
  rw [rotl64_getLsbD a hn (Nat.mod_lt _ (by decide)), hsrc]

/-- Settles O11: the two branches of `rotl64`, the rotation proper by its bits. -/
theorem rotationMovesEveryBit : Obligations.RotationMovesEveryBit :=
  ⟨rotl64_zero, fun a _ _ => rotl64_getLsbD_add_mod a⟩

/-! ### progress of a command: with room in BUF every word answers a next state -/

/-- The three outcomes of ABSORB with room in BUF (R74): Consumed, a byte below the boundary, the byte that fills the block. -/
theorem absorb_outcomes {s : State} (hc : s.cnt < rate s.mode) :
    s.fin = true ∨ (s.fin = false ∧ s.cnt + 1 < rate s.mode) ∨ (s.fin = false ∧ s.cnt + 1 = rate s.mode) := by
  cases s.fin with
  | true => exact .inl rfl
  | false => exact .inr ((Nat.lt_or_eq_of_le (Nat.succ_le_of_lt hc)).imp (.intro rfl) (.intro rfl))

/-- The three outcomes of FINAL (R75), by the priority of R92: InvalidArgument, Consumed, a digest. -/
theorem final_outcomes (size : Byte) (s : State) :
    s.mode.digestSize < size.toNat ∨ (size.toNat ≤ s.mode.digestSize ∧ s.fin = true) ∨
      (size.toNat ≤ s.mode.digestSize ∧ s.fin = false) := by
  rcases Nat.lt_or_ge s.mode.digestSize size.toNat with hd | hd
  · exact .inl hd
  · exact .inr ((Bool.eq_false_or_eq_true s.fin).imp (.intro hd) (.intro hd))

/-- The atomic command. -/
theorem exec_next (i : Instr) {s : State} (hc : s.cnt < rate s.mode) : ∃ t, exec i s = .next t := by
  cases i with
  | reset => exact ⟨_, exec_reset s⟩
  | init m => exact ⟨_, exec_init m s⟩
  | qdsz => exact ⟨_, exec_qdsz s⟩
  | qrate => exact ⟨_, exec_qrate s⟩
  | absorb data =>
    rcases absorb_outcomes hc with hf | ⟨hf, hlt⟩ | ⟨hf, heq⟩
    · exact ⟨_, exec_absorb_consumed data hf⟩
    · exact ⟨_, exec_absorb_below data hf hlt⟩
    · exact ⟨_, exec_absorb_boundary data hf heq⟩
  | final size =>
    rcases final_outcomes size s with hd | ⟨hd, hf⟩ | ⟨hd, hf⟩
    · exact ⟨_, exec_final_invalid hd⟩
    · exact ⟨_, exec_final_consumed hd hf⟩
    · exact ⟨_, exec_final_ok hd hf hc⟩

/-- The word sent to an idle engine, legal or not. -/
theorem sendWord_next (w : Word) {s : State} (hc : s.cnt < rate s.mode) : ∃ t, sendWord w s = .next t := by
  unfold sendWord
  cases decode w with
  | error e => exact ⟨_, rfl⟩
  | ok i => exact exec_next i hc

/-- The command at its accepting edge. -/
theorem startCommand_next (i : Instr) {s : State} (hc : s.cnt < rate s.mode) : ∃ t, startCommand i s = .next t := by
  cases i with
  | reset => exact ⟨_, rfl⟩
  | init m => exact ⟨_, rfl⟩
  | qdsz => exact ⟨_, rfl⟩
  | qrate => exact ⟨_, rfl⟩
  | absorb data =>
    rcases absorb_outcomes hc with hf | ⟨hf, hlt⟩ | ⟨hf, heq⟩
    · exact ⟨_, startAbsorb_consumed data hf⟩
    · exact ⟨_, startAbsorb_below data hf hlt⟩
    · exact ⟨_, startAbsorb_boundary data hf heq⟩
  | final size =>
    rcases final_outcomes size s with hd | ⟨hd, hf⟩ | ⟨hd, hf⟩
    · exact ⟨_, startFinal_invalid hd⟩
    · exact ⟨_, startFinal_consumed hd hf⟩
    · exact ⟨_, startFinal_ok hd hf hc⟩

/-- The word at its accepting edge, legal or not. -/
theorem startWord_next (w : Word) {s : State} (hc : s.cnt < rate s.mode) : ∃ t, startWord w s = .next t := by
  unfold startWord
  cases decode w with
  | error e => exact ⟨_, rfl⟩
  | ok i => exact startCommand_next i hc

/-! ### progress of the busy engine, phase by phase -/

/-- XORB finds the buffer as the command in progress left it: full for a block, open for a digest. -/
theorem xorbEdge_next {s : State} {j : Job} (hj : s.job = some j) (hb : j.hasBlock = true) (hfit : j.fits s) :
    ∃ t, xorbEdge s = .next t := by
  unfold xorbEdge
  rw [hj]
  cases j with
  | reply r => cases hb
  | block => exact ⟨_, if_pos hfit.1⟩
  | digest size =>
    obtain ⟨-, hc, -⟩ := hfit
    simp [padBlock, hc]

/-- `RND` is a multiple of `ROUNDS_PER_CYCLE`, which divides 24, so a cycle's rounds never pass the last one. -/
theorem rnd_add_roundsPerCycle_le {k : RoundsPerCycle} {rnd : Nat} (hr : rnd < Config.nRounds) (hd : k.count ∣ rnd) :
    rnd + k.count ≤ Config.nRounds := by
  have hle : k.count ≤ Config.nRounds - rnd :=
    Nat.le_of_dvd (Nat.sub_pos_of_lt hr) (Nat.dvd_sub (roundsPerCycle_dvd k) hd)
  omega

/-- PERM has rounds left for one more cycle. -/
theorem permEdge_next {s : State} {j : Job} (hj : s.job = some j) (hb : j.hasBlock = true)
    (hr : s.rnd + s.params.roundsPerCycle.count ≤ Config.nRounds) : ∃ t, permEdge s = .next t := by
  have hroom : ¬Config.nRounds < s.rnd + s.params.roundsPerCycle.count := Nat.not_lt.2 hr
  unfold permEdge
  rw [hj]
  cases j with
  | reply r => cases hb
  | block | digest size =>
    simp only [hroom, if_false]
    split <;> exact ⟨_, rfl⟩

/-- SQZ is entered only for a digest that still has bytes to emit. -/
theorem sqzEdge_next {s : State} {j : Job} (hj : s.job = some j) (hs : j.squeezesFrom s.sqi) (hfit : j.fits s) :
    ∃ t, sqzEdge s = .next t := by
  unfold sqzEdge
  rw [hj]
  cases j with
  | reply r | block => cases hs
  | digest size => exact ⟨_, if_pos ⟨hs, hfit.1⟩⟩

/-- RESPOND needs only a command in progress. -/
theorem respondEdge_next {s : State} {j : Job} (hj : s.job = some j) : ∃ t, respondEdge s = .next t := by
  simp [respondEdge, hj]

/-- An edge of the sequencer answers a next state in every phase. -/
theorem sequencerEdge_next {s : State} (h : PhaseInv s) : ∃ t, sequencerEdge s = .next t := by
  unfold PhaseInv at h
  unfold sequencerEdge
  cases hp : s.phase with
  | idle => exact ⟨s, rfl⟩
  | xorb =>
    simp only [hp] at h
    obtain ⟨⟨j, hj, hb, hfit⟩, -, -⟩ := h
    exact xorbEdge_next hj hb hfit
  | perm =>
    simp only [hp] at h
    obtain ⟨⟨j, hj, hb, -⟩, hr, hd, -⟩ := h
    exact permEdge_next hj hb (rnd_add_roundsPerCycle_le hr hd)
  | sqz =>
    simp only [hp] at h
    obtain ⟨⟨j, hj, hs, hfit⟩, -⟩ := h
    exact sqzEdge_next hj hs hfit
  | respond =>
    simp only [hp] at h
    obtain ⟨⟨j, hj, -⟩, -, -⟩ := h
    exact respondEdge_next hj

/-! ### the ports, and the clock edge -/

/-- What the phase's invariant reads. -/
theorem phaseInv_congr {s t : State} (hp : s.phase = t.phase) (hj : s.job = t.job) (hc : s.cnt = t.cnt)
    (hm : s.mode = t.mode) (hf : s.fin = t.fin) (hr : s.rnd = t.rnd) (hq : s.sqi = t.sqi)
    (hk : s.params = t.params) : PhaseInv s ↔ PhaseInv t := by
  have hfits (j : Job) : j.fits s ↔ j.fits t := j.fits_congr hc hm hf
  simp only [PhaseInv, RestingFill, hfits, hp, hj, hc, hm, hf, hr, hq, hk]

@[simp] theorem phaseInv_portEdge (p : Pins) (s : State) : PhaseInv (portEdge p s) ↔ PhaseInv s := by
  apply phaseInv_congr <;> simp

@[simp] theorem phaseInv_withInbox (s : State) (moves : List HostMove) :
    PhaseInv { s with inbox := moves } ↔ PhaseInv s := phaseInv_congr rfl rfl rfl rfl rfl rfl rfl rfl

/-- In IDLE there is room in BUF (R14, R26). -/
theorem PhaseInv.cnt_lt_of_idle {s : State} (h : PhaseInv s) (hi : s.phase = .idle) : s.cnt < rate s.mode := by
  simp only [PhaseInv, hi] at h
  obtain ⟨-, ⟨hc, -⟩, -⟩ := h
  exact hc

/-- The hold is broken exactly when a word is held and the pins do not present it. -/
theorem holdBroken_iff {p : Pins} {s : State} :
    holdBroken p s = true ↔ ∃ w, s.offered = some w ∧ (p.cmdValid = false ∨ p.cmd ≠ w) := by
  cases ho : s.offered <;> cases hv : p.cmdValid <;> simp [holdBroken, Pins.presented, ho, hv]

/-- A clock edge answers a next state, or is refused because the hold is broken. -/
theorem clockEdge_next_or_broken (p : Pins) {s : State} (h : PhaseInv s) :
    (∃ t, clockEdge p s = .next t) ∨
    (clockEdge p s = .refused .handshakeBroken ∧ p.rst = false ∧ holdBroken p s = true) := by
  cases hr : p.rst with
  | true => exact .inl ⟨_, clockEdge_rst hr s⟩
  | false =>
    cases hb : holdBroken p s with
    | true => exact .inr ⟨clockEdge_broken hr hb, rfl, rfl⟩
    | false =>
      refine .inl ?_
      by_cases hn : s.phase = .idle ∧ p.cmdValid = true
      · rw [clockEdge_accept hr hb hn.1 hn.2]
        exact startWord_next p.cmd (by simpa using h.cnt_lt_of_idle hn.1)
      · rw [clockEdge_run hr hb hn]
        exact sequencerEdge_next ((phaseInv_portEdge p s).2 h)

/-- The move *send* answers a next state, or is refused because another word is held. -/
theorem sendMove_next_or_broken (w : Word) (rest : List HostMove) {s : State} (h : PhaseInv s) :
    (∃ t, sendMove w rest s = .next t) ∨
    (sendMove w rest s = .refused .handshakeBroken ∧ holdBroken (Pins.offer w) s = true) := by
  unfold sendMove
  by_cases hi : s.phase = .idle
  · rw [if_pos hi]
    cases holdBroken (Pins.offer w) s with
    | true => exact .inr ⟨rfl, rfl⟩
    | false => exact .inl (sendWord_next w (h.cnt_lt_of_idle hi))
  · rw [if_neg hi]
    exact (clockEdge_next_or_broken (Pins.offer w) h).imp_right fun ⟨hstep, _, hb⟩ => ⟨hstep, hb⟩

/-- Settles O45: by the host's next move, of which *take* and *hwReset* always answer a next state. -/
theorem invariantStatesNeverFault : Obligations.InvariantStatesNeverFault := by
  rintro s ⟨-, hphase, -, -⟩
  unfold Safe step
  cases hin : s.inbox with
  | nil =>
    refine (clockEdge_next_or_broken Pins.quiet hphase).imp_right fun ⟨hstep, _, hb⟩ => ?_
    obtain ⟨w, hw, -⟩ := holdBroken_iff.1 hb
    exact ⟨hstep, w, hw, .inl rfl⟩
  | cons move rest =>
    cases move with
    | send w' =>
      refine (sendMove_next_or_broken w' rest hphase).imp_right fun ⟨hstep, hb⟩ => ?_
      obtain ⟨w, hw, hv | hne⟩ := holdBroken_iff.1 hb
      · cases hv
      · exact ⟨hstep, w, hw, .inr (.inl ⟨w', rest, rfl, hne⟩)⟩
    | take => exact .inl ⟨_, rfl⟩
    | hwReset m => exact .inl ⟨_, rfl⟩
    | edge p =>
      refine (clockEdge_next_or_broken p ((phaseInv_withInbox s rest).2 hphase)).imp_right fun ⟨hstep, hrst, hb⟩ => ?_
      obtain ⟨w, hw, hbroken⟩ := holdBroken_iff.1 hb
      exact ⟨hstep, w, hw, .inr (.inr ⟨p, rest, rfl, hrst, hbroken⟩)⟩

end Sys2Proof.Machine
end

section
/-! PROOFS. State (spec/10_state.md), the atomic commands: what each can do, as one inversion lemma; what a command leaves unchanged;
when it stops. -/

namespace Sys2Proof.Machine

/-! ### what a command can do -/

/-- The outcomes of a command that answers a next state, guards included (R73 to R75, R81 to R83). -/
inductive ExecOutcome (s : State) : Instr → State → Prop where
  | reset : ExecOutcome s .reset (emit .ack (clearMessage s))
  | init (m : Preset) : ExecOutcome s (.init m) (emit .ack (clearMessage { s with mode := m }))
  | qdsz : ExecOutcome s .qdsz (emit (.val (payload s.mode.digestSize)) s)
  | qrate : ExecOutcome s .qrate (emit (.val (payload (rate s.mode))) s)
  | absorbConsumed (data : Byte) (hfin : s.fin = true) : ExecOutcome s (.absorb data) (emit (.err .consumed) s)
  | absorbBelow (data : Byte) (hfin : s.fin = false) (hcnt : s.cnt + 1 < rate s.mode) :
      ExecOutcome s (.absorb data) (emit .ack (pushed data s))
  | absorbBoundary (data : Byte) (hfin : s.fin = false) (hcnt : s.cnt + 1 = rate s.mode) :
      ExecOutcome s (.absorb data) (emit .ack (blockBoundary (pushed data s)))
  | finalInvalid (size : Byte) (hsize : s.mode.digestSize < size.toNat) :
      ExecOutcome s (.final size) (emit (.err .invalidArgument) s)
  | finalConsumed (size : Byte) (hsize : size.toNat ≤ s.mode.digestSize) (hfin : s.fin = true) :
      ExecOutcome s (.final size) (emit (.err .consumed) s)
  | finalDigest (size : Byte) (hsize : size.toNat ≤ s.mode.digestSize) (hfin : s.fin = false)
      (hcnt : s.cnt < rate s.mode) : ExecOutcome s (.final size) (emit (.done size) (finalized size s))

theorem exec_outcome {i : Instr} {s t : State} (h : exec i s = .next t) : ExecOutcome s i t := by
  cases i with
  | reset => cases h; exact .reset
  | init m => cases h; exact .init m
  | qdsz => cases h; exact .qdsz
  | qrate => cases h; exact .qrate
  | absorb data =>
    rcases exec_absorb_cases h with ⟨hfin, rfl⟩ | ⟨hfin, hcnt, rfl⟩ | ⟨hfin, hcnt, rfl⟩
    · exact .absorbConsumed data hfin
    · exact .absorbBelow data hfin hcnt
    · exact .absorbBoundary data hfin hcnt
  | final size =>
    rcases exec_final_cases h with ⟨hsize, rfl⟩ | ⟨hsize, hfin, rfl⟩ | ⟨hsize, hfin, hcnt, rfl⟩
    · exact .finalInvalid size hsize
    · exact .finalConsumed size hsize hfin
    · exact .finalDigest size hsize hfin hcnt

/-! ### what a command leaves unchanged -/

section Frame
variable {i : Instr} {s t : State}

/-- The sequencer, the parameters and the host's side stand where they stood (R36). -/
theorem exec_frame (h : exec i s = .next t) :
    t.phase = s.phase ∧ t.rnd = s.rnd ∧ t.sqi = s.sqi ∧ t.job = s.job ∧ t.params = s.params ∧
      t.offered = s.offered ∧ t.inbox = s.inbox ∧ t.taken = s.taken := by
  cases exec_outcome h <;> exact ⟨rfl, rfl, rfl, rfl, rfl, rfl, rfl, rfl⟩

/-- RQ grows at its end (R22), by at least the completion word. -/
theorem exec_rq (h : exec i s = .next t) : ∃ rs : List Rsp, rs ≠ [] ∧ t.rq = s.rq ++ rs.map Rsp.word := by
  cases exec_outcome h with
  | finalDigest size =>
    exact ⟨squeeze (finalized size s).lanes (sizeOperand size) ++ [.done size], by simp, by simp⟩
  | _ => exact ⟨[_], List.cons_ne_nil _ _, rfl⟩

/-- MODE is written by INIT alone. -/
theorem exec_mode (h : exec i s = .next t) : t.mode = s.mode ∨ i = .init t.mode := by
  cases exec_outcome h with
  | init m => exact .inr rfl
  | _ => exact .inl rfl

/-- FIN is cleared by RESET and INIT, and set by a FINAL that answers DONE. -/
theorem exec_fin (h : exec i s = .next t) :
    t.fin = s.fin ∨ (t.fin = false ∧ (i = .reset ∨ ∃ m, i = .init m)) ∨
      (t.fin = true ∧ ∃ size, i = .final size ∧ size.toNat ≤ s.mode.digestSize ∧
        t.rq.getLast? = some (Rsp.done size).word) := by
  cases exec_outcome h with
  | reset => exact .inr (.inl ⟨rfl, .inl rfl⟩)
  | init m => exact .inr (.inl ⟨rfl, .inr ⟨m, rfl⟩⟩)
  | finalDigest size hsize => exact .inr (.inr ⟨rfl, size, rfl, hsize, by simp⟩)
  | _ => exact .inl rfl

/-- A query leaves the message alone (R77). -/
theorem exec_query (h : exec i s = .next t) (hi : i = .qdsz ∨ i = .qrate) :
    t.lanes = s.lanes ∧ t.cnt = s.cnt ∧ t.buf = s.buf := by
  rcases hi with rfl | rfl <;> cases h <;> exact ⟨rfl, rfl, rfl⟩

/-- An ABSORB that ends no block is an error or a write of BUF at CNT. -/
theorem exec_absorb_below_or_consumed {data : Byte} (h : exec (.absorb data) s = .next t)
    (hcnt : s.cnt + 1 ≠ rate s.mode) :
    t.lanes = s.lanes ∧ (t.buf = s.buf ∨ t.buf = s.buf.write s.cnt data) := by
  cases exec_outcome h with
  | absorbConsumed => exact ⟨rfl, .inl rfl⟩
  | absorbBelow => exact ⟨rfl, .inr rfl⟩
  | absorbBoundary _ _ heq => exact absurd heq hcnt

end Frame

/-- Settles O35: the frame lemmas, one for each register the statement names. -/
theorem commandFrame : Obligations.CommandFrame := by
  intro i s t h
  obtain ⟨hphase, hrnd, hsqi, hjob, hparams, hoffered, hinbox, htaken⟩ := exec_frame h
  obtain ⟨rs, hne, hrq⟩ := exec_rq h
  refine ⟨hphase, hrnd, hsqi, hjob, hparams, hoffered, hinbox, htaken, ⟨_, hrq.symm⟩, by simpa [hrq] using hne,
    fun hinit => (exec_mode h).resolve_right (hinit _), fun hfin => ?fin, fun hi => ?query,
    fun d hi hcnt => ?lanes, fun d hi hwf hcnt k hk => ?buf⟩
  case fin =>
    rcases exec_fin h with heq | ⟨-, hi⟩ | ⟨hset, size, hi, -⟩
    · exact absurd heq hfin
    · exact hi.imp_right .inl
    · exact .inr (.inr ⟨size, hi, hset⟩)
  case query =>
    obtain ⟨hlanes, hcnt, hbuf⟩ := exec_query h hi
    exact ⟨hlanes, hcnt, fun k => by rw [bufRead, bufRead, hbuf]⟩
  case lanes =>
    subst hi
    exact (exec_absorb_below_or_consumed h hcnt).1
  case buf =>
    subst hi
    obtain ⟨-, hbuf | hbuf⟩ := exec_absorb_below_or_consumed h hcnt
    · rw [bufRead, bufRead, hbuf]
    · rw [bufRead, bufRead, hbuf, Memory.read_write_other hwf.1 d hk]

/-! ### when a command stops -/

/-- A command that would use BUF beyond its rate (log 6). -/
def Overfills (i : Instr) (s : State) : Prop :=
  rate s.mode ≤ s.cnt ∧ s.fin = false ∧
    ((∃ data, i = .absorb data) ∨ ∃ size, i = .final size ∧ size.toNat ≤ s.mode.digestSize)

theorem exec_of_overfills {i : Instr} {s : State} (h : Overfills i s) : exec i s = .fault .fillBeyondRate := by
  obtain ⟨hcnt, hfin, ⟨data, rfl⟩ | ⟨size, rfl, hsize⟩⟩ := h
  · exact exec_absorb_overfull data hfin hcnt
  · exact exec_final_overfull hsize hfin hcnt

/-- Every other command answers a next state, also with CNT at or beyond the rate. -/
theorem exec_overfills_or_next (i : Instr) (s : State) : Overfills i s ∨ ∃ t, exec i s = .next t := by
  rcases Nat.lt_or_ge s.cnt (rate s.mode) with hcnt | hcnt
  · exact .inr (exec_next i hcnt)
  cases i with
  | reset => exact .inr ⟨_, exec_reset s⟩
  | init m => exact .inr ⟨_, exec_init m s⟩
  | qdsz => exact .inr ⟨_, exec_qdsz s⟩
  | qrate => exact .inr ⟨_, exec_qrate s⟩
  | absorb data =>
    cases hfin : s.fin with
    | true => exact .inr ⟨_, exec_absorb_consumed data hfin⟩
    | false => exact .inl ⟨hcnt, hfin, .inl ⟨data, rfl⟩⟩
  | final size =>
    rcases final_outcomes size s with hsize | ⟨hsize, hfin⟩ | ⟨hsize, hfin⟩
    · exact .inr ⟨_, exec_final_invalid hsize⟩
    · exact .inr ⟨_, exec_final_consumed hsize hfin⟩
    · exact .inl ⟨hcnt, hfin, .inr ⟨size, rfl, hsize⟩⟩

/-- Settles O36: a command overfills the buffer and faults, or answers a next state. -/
theorem commandsStopOnlyOnAnOverfullBuffer : Obligations.CommandsStopOnlyOnAnOverfullBuffer := by
  refine ⟨fun i s f => ⟨fun hfault => ?_, fun ⟨hf, hover⟩ => hf ▸ exec_of_overfills hover⟩, fun i s r hrefused => ?_⟩
  · rcases exec_overfills_or_next i s with hover | ⟨t, hnext⟩
    · rw [exec_of_overfills hover] at hfault
      exact ⟨(Host.Outcome.fault.inj hfault).symm, hover⟩
    · cases hnext.symm.trans hfault
  · rcases exec_overfills_or_next i s with hover | ⟨t, hnext⟩
    · cases (exec_of_overfills hover).symm.trans hrefused
    · cases hnext.symm.trans hrefused

end Sys2Proof.Machine
end

section
/-! PROOFS. State, a message (spec/10_state.md R26, 41_sponge.md R74): what the ABSORB commands of a message leave at the command
boundary. -/

namespace Sys2Proof.Machine

/-! ### complete blocks and tail of a message, a block at a time -/

section Blocks
variable {m : Preset} {blk msg : List Byte}

theorem blockCount_of_lt (h : msg.length < rate m) : blockCount m msg = 0 := Nat.div_eq_of_lt h

theorem messageTail_of_lt (h : msg.length < rate m) : messageTail m msg = msg := by
  simp [messageTail, blockCount_of_lt h]

theorem blockCount_block_append (h : blk.length = rate m) : blockCount m (blk ++ msg) = blockCount m msg + 1 := by
  rw [blockCount, List.length_append, h, Nat.add_div_left _ (rate_pos m), blockCount]

theorem messageTail_block_append (h : blk.length = rate m) : messageTail m (blk ++ msg) = messageTail m msg := by
  rw [messageTail, blockCount_block_append h, Nat.succ_mul, Nat.add_comm, ← List.drop_drop, List.drop_left' h,
    messageTail]

theorem absorbBlocks_block_append (h : blk.length = rate m) (q : Nat) (A : Lanes) :
    absorbBlocks m (q + 1) (blk ++ msg) A = absorbBlocks m q msg (absorbBlock m blk A) := by
  rw [absorbBlocks, List.drop_left' h, List.take_left' h, absorbBlock]

end Blocks

/-! ### a message absorbed -/

theorem runCommands_cons {i : Instr} {s t : State} (h : exec i s = .next t) (rest : List Instr) :
    runCommands (i :: rest) s = runCommands rest t := by
  rw [runCommands, h]

/-- What the engine holds once the ABSORB commands of some bytes have run from `s`; `all` is what the current message has in BUF
at `s`, then those `n` bytes (R26). -/
structure Absorbed (s : State) (all : List Byte) (n : Nat) (t : State) : Prop where
  lanes : t.lanes = absorbBlocks s.mode (blockCount s.mode all) all s.lanes
  bytes : bufBytes t = messageTail s.mode all
  cnt : t.cnt = all.length % rate s.mode
  fin : t.fin = false
  mode : t.mode = s.mode
  params : t.params = s.params
  rq : t.rq = s.rq ++ List.replicate n 0x1000#16

/-- By induction over the bytes, whatever BUF holds at the start: a byte below the boundary joins BUF, the byte that fills the block
takes it off the front of the message. -/
theorem runCommands_absorb (msg : List Byte) {s : State} (hbuf : s.buf.sorted) (hcnt : s.cnt < rate s.mode)
    (hfin : s.fin = false) :
    ∃ t, runCommands (msg.map Instr.absorb) s = .next t ∧ Absorbed s (bufBytes s ++ msg) msg.length t := by
  induction msg generalizing s with
  | nil =>
    have hlen : (bufBytes s).length < rate s.mode := by simpa using hcnt
    refine ⟨s, rfl, ?_⟩
    rw [List.append_nil]
    exact {
      lanes := by rw [blockCount_of_lt hlen, absorbBlocks]
      bytes := (messageTail_of_lt hlen).symm
      cnt := by rw [bufBytes_length, Nat.mod_eq_of_lt hcnt]
      fin := hfin
      mode := rfl
      params := rfl
      rq := (List.append_nil _).symm }
  | cons b msg ih =>
    have hall : bufBytes s ++ b :: msg = bufBytes (pushed b s) ++ msg := by rw [bufBytes_push hbuf]; simp
    have hreplicate : List.replicate (b :: msg).length 0x1000#16 = [Rsp.ack.word] ++ List.replicate msg.length 0x1000#16 :=
      rfl
    rw [hall, List.map_cons]
    rcases Nat.lt_or_eq_of_le (Nat.succ_le_of_lt hcnt) with hlt | heq
    · obtain ⟨t, hrun, habs⟩ := ih (s := emit .ack (pushed b s)) (Memory.write_sorted hbuf _ _) hlt hfin
      refine ⟨t, (runCommands_cons (exec_absorb_below b hfin hlt) _).trans hrun, ?_⟩
      exact { habs with rq := by rw [habs.rq, hreplicate, ← List.append_assoc]; rfl }
    · have hblk : (bufBytes (pushed b s)).length = rate s.mode := by rw [bufBytes_length]; exact heq
      obtain ⟨t, hrun, habs⟩ :=
        ih (s := emit .ack (blockBoundary (pushed b s))) List.Pairwise.nil (rate_pos _) hfin
      refine ⟨t, (runCommands_cons (exec_absorb_boundary b hfin heq) _).trans hrun, ?_⟩
      exact {
        lanes := by rw [blockCount_block_append hblk, absorbBlocks_block_append hblk]; exact habs.lanes
        bytes := by rw [messageTail_block_append hblk]; exact habs.bytes
        cnt := by rw [List.length_append, hblk, Nat.add_mod_left]; exact habs.cnt
        fin := habs.fin
        mode := habs.mode
        params := habs.params
        rq := by rw [habs.rq, hreplicate, ← List.append_assoc]; rfl }

/-- From a fresh state, where BUF is empty, the bytes are the whole message. -/
theorem runCommands_absorb_of_fresh (msg : List Byte) {s : State} (h : Fresh s) :
    ∃ t, runCommands (msg.map Instr.absorb) s = .next t ∧ Absorbed s msg msg.length t := by
  obtain ⟨-, hbuf, hcnt, hfin⟩ := h
  have hempty : bufBytes s = [] := by rw [bufBytes, hcnt]; rfl
  have := runCommands_absorb msg (s := s) (by rw [hbuf]; exact List.Pairwise.nil) (by rw [hcnt]; exact rate_pos _) hfin
  rwa [hempty, List.nil_append] at this

/-- Settles O54: the absorbed message from zero lanes. -/
theorem boundaryStateAfterAMessage : Obligations.BoundaryStateAfterAMessage := by
  intro msg s hfresh
  obtain ⟨t, hrun, habs⟩ := runCommands_absorb_of_fresh msg hfresh
  have hlanes : t.lanes = messageLanes s.mode msg := by rw [habs.lanes, hfresh.1]; rfl
  exact ⟨t, hrun, habs.cnt, habs.bytes, hlanes, habs.fin, habs.mode, habs.rq⟩

end Sys2Proof.Machine
end

section
/-! PROOFS. State, steps: what a sequencer edge, an accepted word and a step can do, each once; the words of RQ in order
(spec/10_state.md R22); which steps write MODE and FIN (R15, R16). -/

namespace Sys2Proof.Machine

/-! ### what a step can do -/

/-- The outcomes of an edge of the sequencer, guards included (R18 to R21, R104). -/
inductive SequencerOutcome (s : State) : State → Prop where
  /-- An idle engine, or one with a word to emit and RQ full. -/
  | hold (h : s.phase = .idle ∨ (s.phase = .sqz ∨ s.phase = .respond) ∧ rqFull s = true) : SequencerOutcome s s
  | xorb (j : Job) (hphase : s.phase = .xorb) (hjob : s.job = some j) (hblock : j.hasBlock = true)
      (hfull : s.job = some .block → s.cnt = rate s.mode)
      (hopen : ∀ size, s.job = some (.digest size) → s.cnt < rate s.mode) :
      SequencerOutcome s (enterPerm (xorBlock (lanesPerBlock s.mode) (blockInProgress s) s.lanes) s)
  | permRounds (j : Job) (hphase : s.phase = .perm) (hjob : s.job = some j) (hblock : j.hasBlock = true)
      (hrnd : s.rnd + s.params.roundsPerCycle.count < Config.nRounds) :
      SequencerOutcome s { s with
        lanes := rounds s.rnd s.params.roundsPerCycle.count s.lanes, rnd := s.rnd + s.params.roundsPerCycle.count }
  | permEnd (j : Job) (hphase : s.phase = .perm) (hjob : s.job = some j) (hblock : j.hasBlock = true)
      (hrnd : s.rnd + s.params.roundsPerCycle.count = Config.nRounds) :
      SequencerOutcome s { s with
        lanes := rounds s.rnd s.params.roundsPerCycle.count s.lanes, phase := phaseAfterPerm j, rnd := 0, sqi := 0 }
  | digestByte (size : Byte) (hphase : s.phase = .sqz) (hjob : s.job = some (.digest size))
      (hsqi : s.sqi < sizeOperand size) (hsize : sizeOperand size ≤ s.mode.digestSize) (hroom : rqFull s = false) :
      SequencerOutcome s (squeezeOne size s)
  | complete (j : Job) (hphase : s.phase = .respond) (hjob : s.job = some j) (hroom : rqFull s = false) :
      SequencerOutcome s (toIdle (emit j.completion (j.finish s)))

theorem sequencerEdge_outcome {s t : State} (h : sequencerEdge s = .next t) : SequencerOutcome s t := by
  unfold sequencerEdge at h
  cases hphase : s.phase with
  | idle =>
    simp only [hphase] at h
    cases h
    exact .hold (.inl hphase)
  | xorb =>
    simp only [hphase] at h
    obtain ⟨⟨j, hjob, hblock⟩, hfull, hopen, rfl⟩ := xorbEdge_cases h
    exact .xorb j hphase hjob hblock hfull hopen
  | perm =>
    simp only [hphase] at h
    obtain ⟨j, hjob, hblock, ⟨hrnd, rfl⟩ | ⟨hrnd, rfl⟩⟩ := permEdge_cases h
    · exact .permRounds j hphase hjob hblock hrnd
    · exact .permEnd j hphase hjob hblock hrnd
  | sqz =>
    simp only [hphase] at h
    obtain ⟨size, hjob, hsqi, hsize, ⟨hfull, rfl⟩ | ⟨hroom, rfl⟩⟩ := sqzEdge_cases h
    · exact .hold (.inr ⟨.inl hphase, hfull⟩)
    · exact .digestByte size hphase hjob hsqi hsize hroom
  | respond =>
    simp only [hphase] at h
    obtain ⟨j, hjob, ⟨hfull, rfl⟩ | ⟨hroom, rfl⟩⟩ := respondEdge_cases h
    · exact .hold (.inr ⟨.inr hphase, hfull⟩)
    · exact .complete j hphase hjob hroom

/-- The outcomes of a step that answers a next state, by the host move that brings it about (R36, R43, R44, R101). -/
inductive StepOutcome (s t : State) : Prop where
  | resetMove (m : Preset) (rest : List HostMove) (hin : s.inbox = .hwReset m :: rest)
      (ht : t = hardwareReset m { s with inbox := rest })
  | resetEdge (p : Pins) (rest : List HostMove) (hin : s.inbox = .edge p :: rest) (hrst : p.rst = true)
      (ht : t = { hardwareReset p.cfgMode { s with inbox := rest } with offered := p.presented })
  | take (rest : List HostMove) (hin : s.inbox = .take :: rest) (ht : t = takeRsp { s with inbox := rest })
  | atomic (w : Word) (rest : List HostMove) (hin : s.inbox = .send w :: rest) (hphase : s.phase = .idle)
      (ht : sendWord w { s with inbox := rest, offered := none } = .next t)
  | accept (p : Pins) (rest : List HostMove) (hin : s.inbox = .edge p :: rest) (hphase : s.phase = .idle)
      (hvalid : p.cmdValid = true) (ht : startWord p.cmd (portEdge p { s with inbox := rest }) = .next t)
  /-- Any other clock edge: one of the sequencer, with the moves then left. -/
  | sequencer (p : Pins) (moves : List HostMove)
      (ht : sequencerEdge (portEdge p { s with inbox := moves }) = .next t)

theorem clockEdge_sequencer {p : Pins} {s t : State} (hrst : p.rst = false)
    (hidle : ¬(s.phase = .idle ∧ p.cmdValid = true)) (h : clockEdge p s = .next t) :
    sequencerEdge (portEdge p s) = .next t := by
  rcases clockEdge_cases h with ⟨hr, -⟩ | ⟨-, -, hphase, hvalid, -⟩ | ⟨-, -, -, hseq⟩
  · cases hr.symm.trans hrst
  · exact absurd ⟨hphase, hvalid⟩ hidle
  · exact hseq

theorem step_outcome {s t : State} (h : step s = .next t) : StepOutcome s t := by
  unfold step at h
  split at h
  case h_1 => exact .sequencer Pins.quiet s.inbox (clockEdge_sequencer rfl (fun hacc => nomatch hacc.2) h)
  case h_2 w rest hin =>
    unfold sendMove at h
    split at h
    case isTrue hphase =>
      split at h
      · cases h
      · exact .atomic w rest hin hphase h
    case isFalse hphase =>
      exact .sequencer (Pins.offer w) s.inbox (clockEdge_sequencer rfl (fun hacc => hphase hacc.1) h)
  case h_3 rest hin => exact .take rest hin (Host.Outcome.next.inj h).symm
  case h_4 m rest hin => exact .resetMove m rest hin (Host.Outcome.next.inj h).symm
  case h_5 p rest hin =>
    rcases clockEdge_cases h with ⟨hrst, ht⟩ | ⟨-, -, hphase, hvalid, ht⟩ | ⟨-, -, -, ht⟩
    · exact .resetEdge p rest hin hrst ht
    · exact .accept p rest hin hphase hvalid ht
    · exact .sequencer p rest ht

/-! ### the queue of responses -/

theorem takeRsp_rq (s : State) : (takeRsp s).rq = s.rq.tail := by
  unfold takeRsp
  cases hrq : s.rq <;> simp [hrq]

theorem takeRsp_taken (s : State) : (takeRsp s).taken = s.taken ++ s.rq.take 1 := by
  unfold takeRsp
  cases hrq : s.rq <;> simp

theorem portEdge_rq (p : Pins) (s : State) : (portEdge p s).rq = if p.rspReady then s.rq.tail else s.rq := by
  unfold portEdge
  split <;> simp [takeRsp_rq]

theorem portEdge_taken (p : Pins) (s : State) :
    (portEdge p s).taken = if p.rspReady then s.taken ++ s.rq.take 1 else s.taken := by
  unfold portEdge
  split <;> simp [takeRsp_taken]

/-- Accepting a word takes none and emits none. -/
theorem startWord_queues {w : Word} {s t : State} (h : startWord w s = .next t) : t.taken = s.taken ∧ t.rq = s.rq := by
  rcases startWord_cases h with ⟨r, u, -, rfl | ⟨m, rfl⟩ | ⟨data, rfl, -⟩, -, rfl⟩ | ⟨data, -, -, -, -, rfl⟩ |
    ⟨size, -, -, -, -, -, rfl⟩
  all_goals exact ⟨rfl, rfl⟩

/-! ### the fields of a digest byte's and of a completion's state -/

theorem squeezeOne_rq (size : Byte) (s : State) :
    (squeezeOne size s).rq = s.rq ++ [(Rsp.data (stByte s.lanes s.sqi)).word] := by
  unfold squeezeOne; split <;> rfl
@[simp] theorem squeezeOne_taken (size : Byte) (s : State) : (squeezeOne size s).taken = s.taken := by
  unfold squeezeOne; split <;> rfl
@[simp] theorem squeezeOne_buf (size : Byte) (s : State) : (squeezeOne size s).buf = s.buf := by
  unfold squeezeOne; split <;> rfl
@[simp] theorem squeezeOne_cnt (size : Byte) (s : State) : (squeezeOne size s).cnt = s.cnt := by
  unfold squeezeOne; split <;> rfl
@[simp] theorem squeezeOne_mode (size : Byte) (s : State) : (squeezeOne size s).mode = s.mode := by
  unfold squeezeOne; split <;> rfl
@[simp] theorem squeezeOne_fin (size : Byte) (s : State) : (squeezeOne size s).fin = s.fin := by
  unfold squeezeOne; split <;> rfl
@[simp] theorem squeezeOne_params (size : Byte) (s : State) : (squeezeOne size s).params = s.params := by
  unfold squeezeOne; split <;> rfl

@[simp] theorem finish_rq (j : Job) (s : State) : (j.finish s).rq = s.rq := by cases j <;> rfl
@[simp] theorem finish_taken (j : Job) (s : State) : (j.finish s).taken = s.taken := by cases j <;> rfl
@[simp] theorem finish_mode (j : Job) (s : State) : (j.finish s).mode = s.mode := by cases j <;> rfl
@[simp] theorem finish_params (j : Job) (s : State) : (j.finish s).params = s.params := by cases j <;> rfl

/-! ### an edge and the queue -/

theorem rqFull_eq_false {s : State} : rqFull s = false ↔ s.rq.length < s.params.rspDepth := by simp [rqFull]

/-- An edge of the sequencer emits one word where RQ has room, or none. -/
theorem sequencerEdge_queues {s t : State} (h : sequencerEdge s = .next t) :
    t.taken = s.taken ∧
      (t.rq = s.rq ∨ (s.rq.length < s.params.rspDepth ∧ ∃ r : Rsp, t.rq = s.rq ++ [r.word])) := by
  cases sequencerEdge_outcome h with
  | hold | xorb | permRounds | permEnd => exact ⟨rfl, .inl rfl⟩
  | digestByte size _ _ _ _ hroom =>
    exact ⟨squeezeOne_taken size s, .inr ⟨rqFull_eq_false.1 hroom, _, squeezeOne_rq size s⟩⟩
  | complete j _ _ hroom => exact ⟨by simp, .inr ⟨rqFull_eq_false.1 hroom, j.completion, by simp⟩⟩

/-- What an edge without reset does to the queues, after the ports. -/
theorem clockEdge_queues {p : Pins} {s t : State} (hrst : p.rst = false) (h : clockEdge p s = .next t) :
    ∃ new : List Rsp, new.length ≤ 1 ∧ t.taken = (portEdge p s).taken ∧
      t.rq = (portEdge p s).rq ++ new.map Rsp.word ∧ t.rq.length ≤ max (portEdge p s).rq.length s.params.rspDepth := by
  rcases clockEdge_cases h with ⟨hr, -⟩ | ⟨-, -, -, -, ht⟩ | ⟨-, -, -, ht⟩
  · cases hr.symm.trans hrst
  · obtain ⟨htaken, hrq⟩ := startWord_queues ht
    exact ⟨[], Nat.zero_le _, htaken, by simp [hrq], by simp [hrq]⟩
  · rcases sequencerEdge_queues ht with ⟨htaken, hrq | ⟨hroom, r, hrq⟩⟩
    · exact ⟨[], Nat.zero_le _, htaken, by simp [hrq], by simp [hrq]⟩
    · rw [portEdge_params] at hroom
      refine ⟨[r], Nat.le_refl _, htaken, hrq, ?_⟩
      rw [hrq, List.length_append]
      exact Nat.le_trans hroom (Nat.le_max_right _ _)

/-- Settles O49: the ports take the head of RQ or nothing, and the sequencer only appends. -/
theorem responseQueueKeepsOrder : Obligations.ResponseQueueKeepsOrder := by
  intro p s t hrst h
  obtain ⟨new, hone, htaken, hrq, hlen⟩ := clockEdge_queues hrst h
  refine ⟨new, hone, ?order, fun hready _ => ?head, fun hno => ?none, fun hready hne => ?stable, ?bound⟩
  case order => rw [htaken, hrq, ← List.append_assoc, portEdge_responses]
  case head => rw [htaken, portEdge_taken, if_pos hready]
  case none =>
    rw [htaken, portEdge_taken]
    rcases hno with hready | hempty
    · simp [hready]
    · simp [hempty]
  case stable =>
    rw [rspWord, rspWord, hrq, portEdge_rq, hready, if_neg Bool.false_ne_true, List.head?_append_of_ne_nil _ hne]
  case bound =>
    have hport : (portEdge p s).rq.length ≤ s.rq.length := by
      rw [portEdge_rq]
      split
      · simp
      · exact Nat.le_refl _
    exact Nat.le_trans hlen (max_le_max_right _ hport)

/-! ### MODE and FIN -/

/-- A sent word runs as the command it decodes to, or is illegal (R48). -/
theorem sendWord_outcome {w : Word} {s t : State} (h : sendWord w s = .next t) :
    (∃ i, decode w = .ok i ∧ exec i s = .next t) ∨
      ((∃ e, decode w = .error e) ∧ t = emit (.err .illegalCommand) s) := by
  unfold sendWord at h
  cases hdec : decode w with
  | error e =>
    simp only [hdec] at h
    cases h
    exact .inr ⟨⟨e, rfl⟩, rfl⟩
  | ok i =>
    simp only [hdec] at h
    exact .inl ⟨i, rfl, h⟩

/-- A sent word writes MODE only if it is an INIT. -/
theorem sendWord_mode {w : Word} {s t : State} (h : sendWord w s = .next t) :
    t.mode = s.mode ∨ decode w = .ok (.init t.mode) := by
  rcases sendWord_outcome h with ⟨i, hdec, hexec⟩ | ⟨-, rfl⟩
  · exact (exec_mode hexec).imp_right fun hi => hdec.trans (congrArg _ hi)
  · exact .inl rfl

/-- A sent word clears FIN only if it is a RESET or an INIT, and raises it only if it is a FINAL that answers DONE. -/
theorem sendWord_fin {w : Word} {s t : State} (h : sendWord w s = .next t) :
    t.fin = s.fin ∨ (t.fin = false ∧ (decode w = .ok .reset ∨ ∃ m, decode w = .ok (.init m))) ∨
      (t.fin = true ∧ ∃ size, decode w = .ok (.final size) ∧ size.toNat ≤ s.mode.digestSize ∧
        t.rq.getLast? = some (Rsp.done size).word) := by
  rcases sendWord_outcome h with ⟨i, hdec, hexec⟩ | ⟨-, rfl⟩
  · simpa [hdec] using exec_fin hexec
  · exact .inl rfl

theorem sendWord_params {w : Word} {s t : State} (h : sendWord w s = .next t) : t.params = s.params := by
  rcases sendWord_outcome h with ⟨i, -, hexec⟩ | ⟨-, rfl⟩
  · obtain ⟨-, -, -, -, hparams, -⟩ := exec_frame hexec
    exact hparams
  · rfl

/-- The accepting edge writes MODE and clears FIN as the word does atomically; it never raises FIN. -/
theorem startWord_sendWord {w : Word} {s t : State} (h : startWord w s = .next t) :
    ∃ u, sendWord w s = .next u ∧ t.params = u.params ∧ t.mode = u.mode ∧ t.fin = (s.fin && u.fin) := by
  rcases startWord_cases h with ⟨r, u, -, heffect, hsend, rfl⟩ | ⟨data, -, hfin, -, hsend, rfl⟩ |
    ⟨size, -, -, hfin, -, hsend, rfl⟩
  · refine ⟨_, hsend, rfl, rfl, ?_⟩
    rcases heffect with rfl | ⟨m, rfl⟩ | ⟨data, rfl, -⟩ <;> simp
  · exact ⟨_, hsend, rfl, rfl, by simp [hfin]⟩
  · exact ⟨_, hsend, rfl, rfl, by simp [hfin]⟩

theorem startWord_mode {w : Word} {s t : State} (h : startWord w s = .next t) :
    t.mode = s.mode ∨ decode w = .ok (.init t.mode) := by
  obtain ⟨u, hsend, -, hmode, -⟩ := startWord_sendWord h
  rw [hmode]
  exact sendWord_mode hsend

theorem startWord_params {w : Word} {s t : State} (h : startWord w s = .next t) : t.params = s.params := by
  obtain ⟨u, hsend, hparams, -, -⟩ := startWord_sendWord h
  rw [hparams, sendWord_params hsend]

/-- At the accepting edge FIN can only fall, by a RESET or an INIT. -/
theorem startWord_fin {w : Word} {s t : State} (h : startWord w s = .next t) :
    t.fin = s.fin ∨ (t.fin = false ∧ (decode w = .ok .reset ∨ ∃ m, decode w = .ok (.init m))) := by
  obtain ⟨u, hsend, -, -, hfin⟩ := startWord_sendWord h
  rw [hfin]
  rcases sendWord_fin hsend with heq | ⟨hclear, hw⟩ | ⟨hset, -⟩
  · exact .inl (by simp [heq])
  · exact .inr ⟨by simp [hclear], hw⟩
  · exact .inl (by simp [hset])

/-- No edge of the sequencer writes MODE or a parameter. -/
theorem sequencerEdge_mode {s t : State} (h : sequencerEdge s = .next t) : t.params = s.params ∧ t.mode = s.mode := by
  cases sequencerEdge_outcome h with
  | hold | xorb | permRounds | permEnd => exact ⟨rfl, rfl⟩
  | digestByte size => exact ⟨squeezeOne_params size s, squeezeOne_mode size s⟩
  | complete j => exact ⟨finish_params j s, finish_mode j s⟩

/-- The sequencer raises FIN with the DONE of a FINAL and never clears it. -/
theorem sequencerEdge_fin {s t : State} (h : sequencerEdge s = .next t) :
    t.fin = s.fin ∨ (t.fin = true ∧ ∃ size, s.phase = .respond ∧ s.job = some (.digest size) ∧
      t.rq.getLast? = some (Rsp.done size).word) := by
  cases sequencerEdge_outcome h with
  | hold | xorb | permRounds | permEnd => exact .inl rfl
  | digestByte size => exact .inl (squeezeOne_fin size s)
  | complete j hphase hjob =>
    cases j with
    | reply r | block => exact .inl rfl
    | digest size => exact .inr ⟨rfl, size, hphase, hjob, by simp [Job.completion]⟩

/-- Settles O41: by what the step can do; only hardware reset and an accepted INIT write MODE. -/
theorem onlyInitAndHardwareResetWriteMode : Obligations.OnlyInitAndHardwareResetWriteMode := by
  intro s t h
  cases step_outcome h with
  | resetMove m rest hin ht =>
    subst ht
    exact ⟨rfl, .inr (.inl ⟨m, rest, hin, rfl⟩)⟩
  | resetEdge p rest hin hrst ht =>
    subst ht
    exact ⟨rfl, .inr (.inr (.inl ⟨p, rest, hin, hrst, rfl⟩))⟩
  | take rest hin ht =>
    subst ht
    exact ⟨takeRsp_params _, .inl (takeRsp_mode _)⟩
  | atomic w rest hin hphase ht =>
    have hparams := sendWord_params ht
    refine ⟨hparams, (sendWord_mode ht).imp_right fun hw => ?_⟩
    exact .inr (.inr (.inr ⟨w, rest, t.mode, hin, hphase, hw, rfl⟩))
  | accept p rest hin hphase hvalid ht =>
    refine ⟨by simpa using startWord_params ht, (startWord_mode ht).imp (by simp) fun hw => ?_⟩
    exact .inr (.inr (.inl ⟨p, rest, t.mode, hin, hphase, hvalid, hw, rfl⟩))
  | sequencer p moves ht =>
    obtain ⟨hparams, hmode⟩ := sequencerEdge_mode ht
    exact ⟨by simpa using hparams, .inl (by simpa using hmode)⟩

/-- FIN neither rises nor falls where it is kept. -/
theorem no_rise_no_fall {before after : Bool} (h : after = before) (P Q : Prop) :
    (before = false → after = true → P) ∧ (before = true → after = false → Q) := by
  subst h
  cases after <;> simp

/-- Settles O42: by what the step can do; FIN is compared before and after each. -/
theorem finRisesOnlyByASuccessfulFinal : Obligations.FinRisesOnlyByASuccessfulFinal := by
  intro s t h
  cases step_outcome h with
  | resetMove m rest hin ht =>
    subst ht
    exact ⟨fun _ hset => (by cases hset), fun _ _ => .inl ⟨m, rest, hin⟩⟩
  | resetEdge p rest hin hrst ht =>
    subst ht
    exact ⟨fun _ hset => (by cases hset), fun _ _ => .inr (.inl ⟨p, rest, hin, hrst⟩)⟩
  | take rest hin ht =>
    subst ht
    exact no_rise_no_fall (by simp) _ _
  | atomic w rest hin hphase ht =>
    rcases sendWord_fin ht with heq | ⟨hclear, hw⟩ | ⟨hset, size, hw, hsize, hlast⟩
    · exact no_rise_no_fall heq _ _
    · exact ⟨by simp [hclear], fun _ _ => .inr (.inr ⟨w, rest, .inl hin, hphase, hw⟩)⟩
    · exact ⟨fun _ _ => .inl ⟨w, rest, size, hin, hphase, hw, hsize, hlast⟩, by simp [hset]⟩
  | accept p rest hin hphase hvalid ht =>
    rcases startWord_fin ht with heq | ⟨hclear, hw⟩
    · exact no_rise_no_fall (by simpa using heq) _ _
    · exact ⟨by simp [hclear], fun _ _ => .inr (.inr ⟨p.cmd, rest, .inr ⟨p, hin, hvalid, rfl⟩, hphase, hw⟩)⟩
  | sequencer p moves ht =>
    rcases sequencerEdge_fin ht with heq | ⟨hset, size, hphase, hjob, hlast⟩
    · exact no_rise_no_fall (by simpa using heq) _ _
    · exact ⟨fun _ _ => .inr ⟨size, by simpa using hphase, by simpa using hjob, hlast⟩, by simp [hset]⟩

end Sys2Proof.Machine
end

section
/-! PROOFS. State, the invariant (spec/10_state.md R14, R20 to R22, R26, R27): one rule for each of its parts under each operation; it
holds at reset and every step keeps it. -/

namespace Sys2Proof.Machine

/-! ### the parts of the invariant, and what establishes them -/

section Parts
variable {s t : State}

theorem bufInv_of_buf_nil (h : s.buf = []) : BufInv s := by
  rw [BufInv, h]
  exact ⟨Memory.nil_wf, fun c hc => nomatch hc⟩

theorem BufInv.congr (hs : BufInv s) (hbuf : t.buf = s.buf) (hcnt : t.cnt = s.cnt) : BufInv t := by
  rwa [BufInv, hbuf, hcnt]

theorem BufInv.pushed (hs : BufInv s) (data : Byte) (hcnt : s.cnt < rate s.mode) : BufInv (pushed data s) := by
  obtain ⟨-, hrate, -⟩ := rate_bounds s.mode
  obtain ⟨hwf, hlisted⟩ := hs
  exact ⟨Memory.write_wf hwf (Nat.lt_of_lt_of_le hcnt hrate) data, Memory.write_bound hlisted data⟩

theorem restingFill_of_cnt_zero (h : s.cnt = 0) : RestingFill s := ⟨h ▸ rate_pos s.mode, fun _ => h⟩

theorem restingFill_of_fin_false (hfin : s.fin = false) (hcnt : s.cnt < rate s.mode) : RestingFill s := by
  refine ⟨hcnt, fun hset => ?_⟩
  cases hset.symm.trans hfin

theorem ResponsesInv.append (hs : ResponsesInv s) (rs : List Rsp)
    (h : t.taken ++ t.rq = s.taken ++ s.rq ++ rs.map Rsp.word) : ResponsesInv t := by
  intro w hw
  rw [h, List.mem_append, List.mem_map] at hw
  rcases hw with hold | ⟨r, -, rfl⟩
  · exact hs w hold
  · simp

theorem ResponsesInv.congr (hs : ResponsesInv s) (h : t.taken ++ t.rq = s.taken ++ s.rq) : ResponsesInv t :=
  hs.append [] (by simp [h])

theorem phaseInv_idle (h : s.phase = .idle) : PhaseInv s ↔ s.job = none ∧ RestingFill s ∧ s.rnd = 0 ∧ s.sqi = 0 := by
  simp only [PhaseInv, h]

theorem phaseInv_xorb (h : s.phase = .xorb) :
    PhaseInv s ↔ (∃ j, s.job = some j ∧ j.hasBlock = true ∧ j.fits s) ∧ s.rnd = 0 ∧ s.sqi = 0 := by
  simp only [PhaseInv, h]

theorem phaseInv_perm (h : s.phase = .perm) :
    PhaseInv s ↔ (∃ j, s.job = some j ∧ j.hasBlock = true ∧ j.fits s) ∧
      s.rnd < Config.nRounds ∧ s.params.roundsPerCycle.count ∣ s.rnd ∧ s.sqi = 0 := by
  simp only [PhaseInv, h]

theorem phaseInv_sqz (h : s.phase = .sqz) :
    PhaseInv s ↔ (∃ j, s.job = some j ∧ j.squeezesFrom s.sqi ∧ j.fits s) ∧ s.rnd = 0 := by
  simp only [PhaseInv, h]

theorem phaseInv_respond (h : s.phase = .respond) :
    PhaseInv s ↔ (∃ j, s.job = some j ∧ j.fits s) ∧ s.rnd = 0 ∧ s.sqi = 0 := by
  simp only [PhaseInv, h]

theorem PhaseInv.congr (hs : PhaseInv s) (hphase : t.phase = s.phase) (hjob : t.job = s.job) (hcnt : t.cnt = s.cnt)
    (hmode : t.mode = s.mode) (hfin : t.fin = s.fin) (hrnd : t.rnd = s.rnd) (hsqi : t.sqi = s.sqi)
    (hparams : t.params = s.params) : PhaseInv t :=
  (phaseInv_congr hphase hjob hcnt hmode hfin hrnd hsqi hparams).2 hs

theorem Job.fits.congr {j : Job} (h : j.fits s) (hcnt : t.cnt = s.cnt) (hmode : t.mode = s.mode)
    (hfin : t.fin = s.fin) : j.fits t := (j.fits_congr hcnt hmode hfin).2 h

/-- Where hardware reset leads (R100). -/
theorem phaseInv_of_reset (hphase : s.phase = .idle) (hjob : s.job = none) (hcnt : s.cnt = 0) (hrnd : s.rnd = 0)
    (hsqi : s.sqi = 0) : PhaseInv s :=
  (phaseInv_idle hphase).2 ⟨hjob, restingFill_of_cnt_zero hcnt, hrnd, hsqi⟩

end Parts

theorem engineInv_resetOf {p : Params} (m : Preset) (h : 0 < p.rspDepth) : EngineInv (State.resetOf p m) := by
  refine ⟨bufInv_of_buf_nil rfl, phaseInv_of_reset rfl rfl rfl rfl rfl, fun w hw => ?_, h⟩
  cases hw

/-- Settles O43: the default RSP_DEPTH is 1. -/
theorem resetStateMeetsTheInvariant : Obligations.ResetStateMeetsTheInvariant :=
  ⟨fun _ m h => engineInv_resetOf m h, engineInv_resetOf .p224 Nat.one_pos⟩

/-! ### the host's moves and the ports -/

theorem EngineInv.hardwareReset {s : State} (hs : EngineInv s) (m : Preset) : EngineInv (hardwareReset m s) := by
  obtain ⟨-, -, hrsp, hdepth⟩ := hs
  refine ⟨bufInv_of_buf_nil rfl, phaseInv_of_reset rfl rfl rfl rfl rfl, fun w hw => ?_, hdepth⟩
  exact hrsp w (List.mem_append_left _ (by simpa using hw))

/-- The invariant does not read the word held on the port nor the moves to come. -/
theorem EngineInv.withHost {s : State} (hs : EngineInv s) (held : Option Word) (moves : List HostMove) :
    EngineInv { s with offered := held, inbox := moves } := by
  obtain ⟨hbuf, hphase, hrsp, hdepth⟩ := hs
  exact ⟨hbuf, hphase.congr rfl rfl rfl rfl rfl rfl rfl rfl, hrsp, hdepth⟩

theorem EngineInv.takeRsp {s : State} (hs : EngineInv s) : EngineInv (takeRsp s) := by
  obtain ⟨hbuf, hphase, hrsp, hdepth⟩ := hs
  refine ⟨hbuf.congr (by simp) (by simp), ?_, hrsp.congr (by simp), by simpa using hdepth⟩
  apply hphase.congr <;> simp

theorem EngineInv.portEdge {s : State} (hs : EngineInv s) (p : Pins) : EngineInv (portEdge p s) := by
  obtain ⟨hbuf, hphase, hrsp, hdepth⟩ := hs
  exact ⟨hbuf.congr (by simp) (by simp), (phaseInv_portEdge p s).2 hphase, hrsp.congr (by simp), by simpa using hdepth⟩

/-! ### an atomic command -/

section Command
variable {i : Instr} {w : Word} {s t : State}

theorem exec_bufInv (h : exec i s = .next t) (hs : BufInv s) : BufInv t := by
  cases exec_outcome h with
  | reset | init | absorbBoundary | finalDigest => exact bufInv_of_buf_nil rfl
  | absorbBelow data _ hcnt => exact hs.pushed data (Nat.lt_of_succ_lt hcnt)
  | _ => exact hs

theorem exec_restingFill (h : exec i s = .next t) (hs : RestingFill s) : RestingFill t := by
  cases exec_outcome h with
  | reset | init | absorbBoundary | finalDigest => exact restingFill_of_cnt_zero rfl
  | absorbBelow data hfin hcnt => exact restingFill_of_fin_false hfin hcnt
  | _ => exact hs

/-- A command run in IDLE keeps the invariant. -/
theorem exec_engineInv (h : exec i s = .next t) (hidle : s.phase = .idle) (hs : EngineInv s) : EngineInv t := by
  obtain ⟨hbuf, hphase, hrsp, hdepth⟩ := hs
  obtain ⟨hjob, hrest, hrnd, hsqi⟩ := (phaseInv_idle hidle).1 hphase
  obtain ⟨hphase', hrnd', hsqi', hjob', hparams, -, -, htaken⟩ := exec_frame h
  obtain ⟨rs, -, hrq⟩ := exec_rq h
  refine ⟨exec_bufInv h hbuf, ?_, hrsp.append rs (by rw [htaken, hrq, List.append_assoc]), by rwa [hparams]⟩
  exact (phaseInv_idle (hphase'.trans hidle)).2
    ⟨hjob'.trans hjob, exec_restingFill h hrest, hrnd'.trans hrnd, hsqi'.trans hsqi⟩

theorem EngineInv.emit (hs : EngineInv s) (r : Rsp) : EngineInv (emit r s) := by
  obtain ⟨hbuf, hphase, hrsp, hdepth⟩ := hs
  exact ⟨hbuf, hphase.congr rfl rfl rfl rfl rfl rfl rfl rfl, hrsp.emit r, hdepth⟩

theorem sendWord_engineInv (h : sendWord w s = .next t) (hidle : s.phase = .idle) (hs : EngineInv s) : EngineInv t := by
  rcases sendWord_outcome h with ⟨i, -, hexec⟩ | ⟨-, rfl⟩
  · exact exec_engineInv hexec hidle hs
  · exact hs.emit (.err .illegalCommand)

end Command

/-! ### an accepted word -/

section Accept
variable {w : Word} {s t u : State}

theorem ReplyEffect.bufInv (h : ReplyEffect s u) (hs : BufInv s) : BufInv u := by
  rcases h with rfl | ⟨m, rfl⟩ | ⟨data, rfl, -, hcnt⟩
  · exact hs
  · exact bufInv_of_buf_nil rfl
  · exact hs.pushed data (Nat.lt_of_succ_lt hcnt)

theorem ReplyEffect.restingFill (h : ReplyEffect s u) (hs : RestingFill s) : RestingFill u := by
  rcases h with rfl | ⟨m, rfl⟩ | ⟨data, rfl, hfin, hcnt⟩
  · exact hs
  · exact restingFill_of_cnt_zero rfl
  · exact restingFill_of_fin_false hfin hcnt

theorem ReplyEffect.counters (h : ReplyEffect s u) : u.rnd = s.rnd ∧ u.sqi = s.sqi := by
  rcases h with rfl | ⟨m, rfl⟩ | ⟨data, rfl, -⟩ <;> exact ⟨rfl, rfl⟩

theorem startWord_bufInv (h : startWord w s = .next t) (hs : BufInv s) : BufInv t := by
  rcases startWord_cases h with ⟨r, u, -, heffect, -, rfl⟩ | ⟨data, -, -, hcnt, -, rfl⟩ | ⟨size, -, -, -, -, -, rfl⟩
  · exact heffect.bufInv hs
  · exact hs.pushed data (Nat.lt_of_succ_le hcnt.le)
  · exact hs

/-- The engine leaves IDLE with a command in progress that fits. -/
theorem startWord_phaseInv (h : startWord w s = .next t) (hidle : s.phase = .idle) (hs : PhaseInv s) : PhaseInv t := by
  obtain ⟨-, hrest, hrnd, hsqi⟩ := (phaseInv_idle hidle).1 hs
  rcases startWord_cases h with ⟨r, u, hr, heffect, -, rfl⟩ | ⟨data, -, hfin, hcnt, -, rfl⟩ |
    ⟨size, -, hsize, hfin, hcnt, -, rfl⟩
  · obtain ⟨hrnd', hsqi'⟩ := heffect.counters
    exact (phaseInv_respond rfl).2
      ⟨⟨.reply r, rfl, hr, heffect.restingFill hrest⟩, hrnd'.trans hrnd, hsqi'.trans hsqi⟩
  · exact (phaseInv_xorb rfl).2 ⟨⟨.block, rfl, rfl, hcnt, hfin⟩, hrnd, hsqi⟩
  · exact (phaseInv_xorb rfl).2 ⟨⟨.digest size, rfl, rfl, hsize, hcnt, hfin⟩, hrnd, hsqi⟩

theorem startWord_engineInv (h : startWord w s = .next t) (hidle : s.phase = .idle) (hs : EngineInv s) : EngineInv t := by
  obtain ⟨hbuf, hphase, hrsp, hdepth⟩ := hs
  obtain ⟨htaken, hrq⟩ := startWord_queues h
  exact ⟨startWord_bufInv h hbuf, startWord_phaseInv h hidle hphase, hrsp.congr (by rw [htaken, hrq]),
    by rwa [startWord_params h]⟩

end Accept

/-! ### an edge of the sequencer -/

section Sequencer
variable {s t : State}

theorem finish_bufInv (j : Job) (hs : BufInv s) : BufInv (j.finish s) := by
  cases j with
  | reply r => exact hs
  | block | digest => exact bufInv_of_buf_nil rfl

theorem finish_restingFill {j : Job} (h : j.fits s) : RestingFill (j.finish s) := by
  cases j with
  | reply r => exact h.2
  | block | digest => exact restingFill_of_cnt_zero rfl

theorem sequencerEdge_bufInv (h : sequencerEdge s = .next t) (hs : BufInv s) : BufInv t := by
  cases sequencerEdge_outcome h with
  | hold | xorb | permRounds | permEnd => exact hs
  | digestByte size => exact hs.congr (squeezeOne_buf size s) (squeezeOne_cnt size s)
  | complete j => exact finish_bufInv j hs

/-- PERM is left for SQZ with the first digest byte to come, or for RESPOND. -/
theorem phaseInv_afterPerm {j : Job} (hjob : t.job = some j) (hblock : j.hasBlock = true) (hfit : j.fits t)
    (hphase : t.phase = phaseAfterPerm j) (hrnd : t.rnd = 0) (hsqi : t.sqi = 0) : PhaseInv t := by
  cases j with
  | reply r => cases hblock
  | block => exact (phaseInv_respond hphase).2 ⟨⟨_, hjob, hfit⟩, hrnd, hsqi⟩
  | digest size =>
    by_cases hsize : sizeOperand size = 0
    · have hrespond : t.phase = .respond := hphase.trans (if_pos hsize)
      exact (phaseInv_respond hrespond).2 ⟨⟨_, hjob, hfit⟩, hrnd, hsqi⟩
    · have hsqz : t.phase = .sqz := hphase.trans (if_neg hsize)
      have hopen : t.sqi < sizeOperand size := hsqi ▸ Nat.pos_of_ne_zero hsize
      exact (phaseInv_sqz hsqz).2 ⟨⟨_, hjob, hopen, hfit⟩, hrnd⟩

/-- One digest byte: SQZ goes on below `size`, or is left with SQI 0. -/
theorem squeezeOne_phaseInv {size : Byte} (hphase : s.phase = .sqz) (hjob : s.job = some (.digest size))
    (hsqi : s.sqi < sizeOperand size) (hfit : (Job.digest size).fits s) (hrnd : s.rnd = 0) :
    PhaseInv (squeezeOne size s) := by
  unfold squeezeOne
  split
  case isTrue hlast => exact (phaseInv_respond rfl).2 ⟨⟨_, hjob, hfit⟩, hrnd, rfl⟩
  case isFalse hmore =>
    have hopen : s.sqi + 1 < sizeOperand size := Nat.lt_of_le_of_ne hsqi hmore
    exact (phaseInv_sqz (by exact hphase)).2 ⟨⟨_, hjob, hopen, hfit⟩, hrnd⟩

theorem sequencerEdge_phaseInv (h : sequencerEdge s = .next t) (hs : PhaseInv s) : PhaseInv t := by
  cases sequencerEdge_outcome h with
  | hold => exact hs
  | xorb j hphase hjob hblock =>
    obtain ⟨⟨j', hjob', -, hfit⟩, -, hsqi⟩ := (phaseInv_xorb hphase).1 hs
    cases hjob.symm.trans hjob'
    exact (phaseInv_perm rfl).2
      ⟨⟨j, hjob, hblock, hfit.congr rfl rfl rfl⟩, Nat.succ_pos _, Nat.dvd_zero _, hsqi⟩
  | permRounds j hphase hjob hblock hrnd =>
    obtain ⟨⟨j', hjob', -, hfit⟩, -, hdvd, hsqi⟩ := (phaseInv_perm hphase).1 hs
    cases hjob.symm.trans hjob'
    exact (phaseInv_perm (by exact hphase)).2
      ⟨⟨j, hjob, hblock, hfit.congr rfl rfl rfl⟩, hrnd, Nat.dvd_add hdvd (Nat.dvd_refl _), hsqi⟩
  | permEnd j hphase hjob hblock =>
    obtain ⟨⟨j', hjob', -, hfit⟩, -⟩ := (phaseInv_perm hphase).1 hs
    cases hjob.symm.trans hjob'
    exact phaseInv_afterPerm hjob hblock (hfit.congr rfl rfl rfl) rfl rfl rfl
  | digestByte size hphase hjob hsqi =>
    obtain ⟨⟨j', hjob', -, hfit⟩, hrnd⟩ := (phaseInv_sqz hphase).1 hs
    cases hjob.symm.trans hjob'
    exact squeezeOne_phaseInv hphase hjob hsqi hfit hrnd
  | complete j hphase hjob =>
    obtain ⟨⟨j', hjob', hfit⟩, -⟩ := (phaseInv_respond hphase).1 hs
    cases hjob.symm.trans hjob'
    exact (phaseInv_idle rfl).2 ⟨rfl, finish_restingFill hfit, rfl, rfl⟩

theorem sequencerEdge_engineInv (h : sequencerEdge s = .next t) (hs : EngineInv s) : EngineInv t := by
  obtain ⟨hbuf, hphase, hrsp, hdepth⟩ := hs
  obtain ⟨hparams, -⟩ := sequencerEdge_mode h
  refine ⟨sequencerEdge_bufInv h hbuf, sequencerEdge_phaseInv h hphase, ?_, by rwa [hparams]⟩
  obtain ⟨htaken, hrq | ⟨-, r, hrq⟩⟩ := sequencerEdge_queues h
  · exact hrsp.congr (by rw [htaken, hrq])
  · exact hrsp.append [r] (by rw [htaken, hrq, List.append_assoc]; rfl)

end Sequencer

/-- Settles O44: by what the step can do, one rule for each. -/
theorem stepKeepsTheInvariant : Obligations.StepKeepsTheInvariant := by
  intro s t hs h
  cases step_outcome h with
  | resetMove m rest hin ht =>
    subst ht
    exact (hs.withHost s.offered rest).hardwareReset m
  | resetEdge p rest hin hrst ht =>
    subst ht
    exact (hs.hardwareReset p.cfgMode).withHost p.presented rest
  | take rest hin ht =>
    subst ht
    exact (hs.withHost s.offered rest).takeRsp
  | atomic w rest hin hphase ht => exact sendWord_engineInv ht hphase (hs.withHost none rest)
  | accept p rest hin hphase hvalid ht =>
    exact startWord_engineInv ht (by simpa using hphase) ((hs.withHost s.offered rest).portEdge p)
  | sequencer p moves ht => exact sequencerEdge_engineInv ht ((hs.withHost s.offered moves).portEdge p)

end Sys2Proof.Machine
end

section
/-! PROOFS. Memory, the byte view of the lanes (spec/20_memory.md R30). -/

namespace Sys2Proof.Machine

theorem stByte_eq (A : Lanes) {k : Nat} (hk : k / 8 < 25) : stByte A k = laneByte A[k / 8] (k % 8) := by
  rw [stByte, Vector.getElem?_eq_getElem hk, Option.getD_some]

theorem stRead_getElem? (A : Lanes) (a : Nat) {n i : Nat} (hi : i < n) :
    (stRead A a n)[i]? = some (stByte A (a + i)) := by
  simp [stRead, hi]

/-- A write of lane `j` shows in the bytes of lane `j` and in no other. -/
theorem stByte_set (A : Lanes) (v : Lane) {j k : Nat} (hj : j < 25) (hk : k / 8 < 25) :
    stByte (A.set j v) k = if k / 8 = j then laneByte v (k % 8) else stByte A k := by
  rw [stByte_eq _ hk, stByte_eq _ hk, Vector.getElem_set]
  simp only [eq_comm (a := j)]
  split <;> rfl

/-- Settles O20: there is no storage but the lanes, so a write is seen through `Vector.set`. -/
theorem byteViewReadsTheLanes : Obligations.ByteViewReadsTheLanes :=
  ⟨fun A _ hk => stByte_eq A (Nat.div_lt_of_lt_mul hk),
    fun A a n _ hi => ⟨stRead_length A a n, stRead_getElem? A a hi⟩,
    fun A _ _ v hj hk => stByte_set A v hj (Nat.div_lt_of_lt_mul hk)⟩

end Sys2Proof.Machine
end

section
/-! PROOFS. Memory, the command port (spec/20_memory.md R36, R39): a word sent to an idle engine runs as one command; the word held
on the port of a busy engine is read by no phase. -/

namespace Sys2Proof.Machine

/-! ### a word sent -/

theorem holdBroken_eq_false {p : Pins} {s : State} (h : s.offered = none ∨ s.offered = p.presented) :
    holdBroken p s = false := by
  rcases h with h | h <;> simp [holdBroken, h]

theorem sendWord_ok {w : Word} {i : Instr} (h : decode w = .ok i) (s : State) : sendWord w s = exec i s := by
  simp [sendWord, h]

theorem sendWord_error {w : Word} {e : DecodeError} (h : decode w = .error e) (s : State) :
    sendWord w s = .next (emit (.err .illegalCommand) s) := by
  simp [sendWord, h, raiseErr]

theorem step_send {w : Word} {rest : List HostMove} {s : State} (h : s.inbox = .send w :: rest) :
    step s = sendMove w rest s := by
  simp [step, h]

theorem sendMove_idle {w : Word} {s : State} (rest : List HostMove) (hphase : s.phase = .idle)
    (hheld : s.offered = none ∨ s.offered = some w) :
    sendMove w rest s = sendWord w { s with inbox := rest, offered := none } := by
  rw [sendMove, if_pos hphase, holdBroken_eq_false hheld]
  rfl

theorem sendMove_busy {w : Word} {s : State} (rest : List HostMove) (hphase : s.phase ≠ .idle) :
    sendMove w rest s = clockEdge (Pins.offer w) s := if_neg hphase

/-- Settles O37: in IDLE the move is `sendWord`, by what the word decodes to; while busy it is an edge with the word on the port. -/
theorem stepRunsTheDecodedCommand : Obligations.StepRunsTheDecodedCommand := by
  intro w rest s hin
  rw [step_send hin]
  refine ⟨fun hphase hheld => ?_, sendMove_busy rest⟩
  rw [sendMove_idle rest hphase hheld]
  refine ⟨fun i hdec => sendWord_ok hdec _, fun e hdec => ?_⟩
  rw [sendWord_error hdec, emit, word_err]
  rfl

/-! ### the word held on the port -/

/-- A result with `o` as the word the host must hold. -/
def holding (o : Option Word) : Result → Result
  | .next t => .next { t with offered := o }
  | .fault f => .fault f
  | .refused r => .refused r

section Holding
variable (o : Option Word) (s : State)

theorem xorbEdge_holding : xorbEdge { s with offered := o } = holding o (xorbEdge s) := by
  have hpad : padBlock { s with offered := o } = padBlock s := rfl
  unfold xorbEdge
  rw [hpad]
  dsimp only
  split
  · split <;> rfl
  · cases padBlock s <;> rfl
  · rfl
  · rfl

theorem permEdge_holding : permEdge { s with offered := o } = holding o (permEdge s) := by
  unfold permEdge
  dsimp only
  split
  · rfl
  · rfl
  · split
    · rfl
    · split <;> rfl

theorem squeezeOne_holding (size : Byte) :
    squeezeOne size { s with offered := o } = { squeezeOne size s with offered := o } := by
  unfold squeezeOne
  dsimp only
  split <;> rfl

theorem sqzEdge_holding : sqzEdge { s with offered := o } = holding o (sqzEdge s) := by
  have hfull : rqFull { s with offered := o } = rqFull s := rfl
  unfold sqzEdge
  rw [hfull]
  dsimp only
  split
  · split
    · rw [squeezeOne_holding]
      cases rqFull s <;> rfl
    · rfl
  all_goals rfl

theorem finish_holding (j : Job) : j.finish { s with offered := o } = { j.finish s with offered := o } := by
  cases j <;> rfl

theorem respondEdge_holding : respondEdge { s with offered := o } = holding o (respondEdge s) := by
  have hfull : rqFull { s with offered := o } = rqFull s := rfl
  unfold respondEdge
  rw [hfull]
  dsimp only
  split
  · rw [finish_holding]
    cases rqFull s <;> rfl
  · rfl

/-- No phase reads the word held on the port (R39). -/
theorem sequencerEdge_holding : sequencerEdge { s with offered := o } = holding o (sequencerEdge s) := by
  unfold sequencerEdge
  dsimp only
  split
  · rfl
  · exact xorbEdge_holding o s
  · exact permEdge_holding o s
  · exact sqzEdge_holding o s
  · exact respondEdge_holding o s

end Holding

theorem portEdge_presenting (p : Pins) (v : Bool) (w : Word) {s : State} (hbusy : s.phase ≠ .idle) :
    portEdge { p with cmdValid := v, cmd := w } s =
      { portEdge p s with offered := if v = true then some w else none } := by
  simp only [portEdge, if_neg hbusy, Pins.presented]

theorem clockEdge_busy {p : Pins} {s : State} (hrst : p.rst = false) (hheld : s.offered = none)
    (hbusy : s.phase ≠ .idle) : clockEdge p s = sequencerEdge (portEdge p s) :=
  clockEdge_run hrst (holdBroken_eq_false (.inl hheld)) fun hacc => hbusy hacc.1

/-- Settles O51: both edges are the sequencer's, from states that differ in the word held alone. -/
theorem busyEngineIgnoresTheCommandPort : Obligations.BusyEngineIgnoresTheCommandPort := by
  intro p v w s t hbusy hheld hrst
  refine ⟨by simp [cmdReady, hbusy], fun h => ?_⟩
  rw [clockEdge_busy hrst hheld hbusy] at h
  rw [clockEdge_busy (by exact hrst) hheld hbusy, portEdge_presenting p v w hbusy, sequencerEdge_holding, h, holding]

end Sys2Proof.Machine
end

section
/-! PROOFS. Memory, refinement (spec/20_memory.md R36; 70_reset_and_hazards.md R104, R109). `settle` is the simulation: an edge of the
sequencer keeps the settled state, an accepting edge settles to the state of the atomic command, and what RQ, the host's record and
the port hold is read by neither. -/

namespace Sys2Proof.Machine

/-! ### what the host can tell apart -/

theorem observe_eq_iff {s v : State} : observe v = observe s ↔
    v = { s with rq := v.rq, taken := v.taken, offered := v.offered } ∧ v.taken ++ v.rq = s.taken ++ s.rq := by
  obtain ⟨⟩ := s
  obtain ⟨⟩ := v
  simp only [observe, State.mk.injEq]
  tauto

theorem observe_portEdge (p : Pins) (s : State) : observe (portEdge p s) = observe s := by
  unfold observe
  simp

section Independent
variable {s t u v : State}

/-- The operation that leads from `s` to `t` appends `ws` to RQ and reads neither the queues nor the port: from a `v` the host cannot
tell from `s` it leads to a `u` the host cannot tell from `t`. -/
theorem observe_eq_of_append {ws : List Word} (hv : observe v = observe s) (hrq : t.rq = s.rq ++ ws)
    (htaken : t.taken = s.taken) (hu : u = { t with rq := v.rq ++ ws, taken := v.taken, offered := v.offered }) :
    observe u = observe t := by
  obtain ⟨-, hqueues⟩ := observe_eq_iff.1 hv
  subst hu
  refine observe_eq_iff.2 ⟨rfl, ?_⟩
  rw [htaken, hrq, ← List.append_assoc, ← List.append_assoc, hqueues]

theorem exec_observe {i : Instr} (h : exec i s = .next t) (hv : observe v = observe s) :
    ∃ u, exec i v = .next u ∧ observe u = observe t := by
  obtain ⟨rs, hrq, hindep⟩ := exec_independent h
  obtain ⟨-, -, -, -, -, -, hinbox, htaken⟩ := exec_frame h
  obtain ⟨hstate, -⟩ := observe_eq_iff.1 hv
  refine ⟨_, (congrArg (exec i) hstate).trans (hindep v.rq v.taken v.offered s.inbox), ?_⟩
  exact observe_eq_of_append hv hrq htaken (by rw [hinbox])

theorem emit_observe (r : Rsp) (hv : observe v = observe s) : observe (emit r v) = observe (emit r s) := by
  obtain ⟨hstate, -⟩ := observe_eq_iff.1 hv
  exact observe_eq_of_append hv rfl rfl (congrArg (emit r) hstate)

theorem sendWord_observe {w : Word} (h : sendWord w s = .next t) (hv : observe v = observe s) :
    ∃ u, sendWord w v = .next u ∧ observe u = observe t := by
  rcases sendWord_outcome h with ⟨i, hdec, hexec⟩ | ⟨⟨e, hdec⟩, rfl⟩
  · rw [sendWord_ok hdec]
    exact exec_observe hexec hv
  · exact ⟨_, sendWord_error hdec v, emit_observe _ hv⟩

end Independent

/-! ### a command in progress completed -/

/-- A command in progress completed: `A` the lanes it leaves, `rs` the DATA responses it has still to emit. -/
def completed (j : Job) (A : Lanes) (rs : List Rsp) (s : State) : State :=
  toIdle (emit j.completion (j.finish (emitAll rs { s with lanes := A })))

/-- `t` differs from `s` in the lanes, in where the sequencer stands, and in RQ alone. -/
def Advances (s t : State) : Prop :=
  t = { s with lanes := t.lanes, phase := t.phase, rnd := t.rnd, sqi := t.sqi, rq := t.rq }

section Completed
variable (j : Job) (A : Lanes) (rs : List Rsp) (s : State)

theorem completed_nil : completed j A [] s = toIdle (emit j.completion (j.finish { s with lanes := A })) := by
  simp [completed, emitAll]

theorem completed_rq : (completed j A rs s).rq = s.rq ++ (rs ++ [j.completion]).map Rsp.word := by simp [completed]

theorem completed_taken : (completed j A rs s).taken = s.taken := by simp [completed]

theorem completed_withQueues (q tk : List Word) (o : Option Word) :
    completed j A rs { s with rq := q, taken := tk, offered := o } =
      { completed j A rs s with rq := q ++ (rs ++ [j.completion]).map Rsp.word, taken := tk, offered := o } := by
  rw [List.map_append, ← List.append_assoc]
  cases j <;> rfl

/-- The lanes, the phase and its counters are overwritten, so it does not matter where the sequencer stands, nor whether a DATA
response is emitted before or counted among those to come. -/
theorem completed_advance {s t : State} {emitted : List Rsp} (hadv : Advances s t)
    (hrq : t.rq = s.rq ++ emitted.map Rsp.word) : completed j A rs t = completed j A (emitted ++ rs) s := by
  rw [hadv, hrq]
  cases j <;> simp [completed, emitAll, emit, Job.finish, toIdle, bufEmpty, setFin]

end Completed

theorem settle_of_no_job {s : State} (h : s.job = none) : settle s = s := by rw [settle, h]

theorem settle_of_job {s : State} {j : Job} (h : s.job = some j) :
    settle s = completed j (lanesToCome s) (dataToCome s (lanesToCome s)) s := by
  unfold settle
  split
  case h_1 hnone => cases h.symm.trans hnone
  case h_2 j' hjob =>
    cases h.symm.trans hjob
    rfl

/-- What settling appends to RQ and makes of the rest of the state does not depend on the queues nor on the port. -/
theorem settle_independent (s : State) : ∃ rs : List Rsp, (settle s).rq = s.rq ++ rs.map Rsp.word ∧
    (settle s).taken = s.taken ∧ ∀ (q tk : List Word) (o : Option Word),
      settle { s with rq := q, taken := tk, offered := o } =
        { settle s with rq := q ++ rs.map Rsp.word, taken := tk, offered := o } := by
  obtain hjob | ⟨j, hjob⟩ := Option.eq_none_or_eq_some s.job
  · rw [settle_of_no_job hjob]
    refine ⟨[], (List.append_nil _).symm, rfl, fun q tk o => ?_⟩
    rw [settle_of_no_job (by exact hjob), List.map_nil, List.append_nil]
  · rw [settle_of_job hjob]
    refine ⟨_, completed_rq _ _ _ s, completed_taken _ _ _ s, fun q tk o => ?_⟩
    rw [settle_of_job (by exact hjob)]
    exact completed_withQueues j _ _ s q tk o

theorem settle_observe {s v : State} (hv : observe v = observe s) : observe (settle v) = observe (settle s) := by
  obtain ⟨rs, hrq, htaken, hindep⟩ := settle_independent s
  obtain ⟨hstate, -⟩ := observe_eq_iff.1 hv
  exact observe_eq_of_append hv hrq htaken ((congrArg settle hstate).trans (hindep _ _ _))

/-! ### the lanes and the DATA responses to come, by phase -/

section ToCome
variable {s t : State}

theorem lanesToCome_xorb (h : s.phase = .xorb) :
    lanesToCome s = absorbBlock s.mode (blockInProgress s) s.lanes := by rw [lanesToCome, h]

theorem lanesToCome_perm (h : s.phase = .perm) :
    lanesToCome s = rounds s.rnd (Config.nRounds - s.rnd) s.lanes := by rw [lanesToCome, h]

/-- Once PERM is left the lanes are final. -/
theorem lanesToCome_permuted (h : s.phase = .sqz ∨ s.phase = .respond) : lanesToCome s = s.lanes := by
  rcases h with h | h <;> rw [lanesToCome, h]

theorem dataToCome_reply {r : Rsp} (h : s.job = some (.reply r)) (A : Lanes) : dataToCome s A = [] := by
  rw [dataToCome, h]

theorem dataToCome_block (h : s.job = some .block) (A : Lanes) : dataToCome s A = [] := by
  rw [dataToCome, h]

theorem dataToCome_digest {size : Byte} (h : s.job = some (.digest size)) (A : Lanes)
    (hphase : s.phase = .xorb ∨ s.phase = .perm) : dataToCome s A = squeeze A (sizeOperand size) := by
  rcases hphase with hphase | hphase <;> simp only [dataToCome, h, hphase]

theorem dataToCome_sqz {size : Byte} (h : s.job = some (.digest size)) (A : Lanes) (hphase : s.phase = .sqz) :
    dataToCome s A = (stRead A s.sqi (sizeOperand size - s.sqi)).map Rsp.data := by
  simp only [dataToCome, h, hphase]

theorem dataToCome_respond (A : Lanes) (hphase : s.phase = .respond) : dataToCome s A = [] := by
  unfold dataToCome
  rw [hphase]
  split <;> rfl

/-- Entering PERM emits nothing. -/
theorem dataToCome_enterPerm {j : Job} (hjob : s.job = some j) (hphase : s.phase = .xorb) (A B : Lanes) :
    dataToCome (enterPerm A s) B = dataToCome s B := by
  cases j with
  | reply r => rw [dataToCome_reply hjob, dataToCome_reply (by exact hjob)]
  | block => rw [dataToCome_block hjob, dataToCome_block (by exact hjob)]
  | digest size => rw [dataToCome_digest hjob _ (.inl hphase), dataToCome_digest (by exact hjob) _ (.inr rfl)]

theorem phaseAfterPerm_permuted (j : Job) : phaseAfterPerm j = .sqz ∨ phaseAfterPerm j = .respond := by
  cases j with
  | reply r | block => exact .inr rfl
  | digest size => exact (ite_eq_or_eq _ _ _).symm

/-- Leaving PERM emits nothing: SQZ has all bytes to come, and is skipped when there are none. -/
theorem dataToCome_afterPerm {j : Job} (A : Lanes) (hblock : j.hasBlock = true) (hs : s.job = some j)
    (ht : t.job = some j) (hphase : s.phase = .perm) (hafter : t.phase = phaseAfterPerm j) (hsqi : t.sqi = 0) :
    dataToCome t A = dataToCome s A := by
  cases j with
  | reply r => cases hblock
  | block => rw [dataToCome_block hs, dataToCome_block ht]
  | digest size =>
    rw [dataToCome_digest hs A (.inr hphase)]
    by_cases hsize : sizeOperand size = 0
    · have hrespond : t.phase = .respond := hafter.trans (if_pos hsize)
      rw [dataToCome_respond _ hrespond, hsize]
      rfl
    · have hsqz : t.phase = .sqz := hafter.trans (if_neg hsize)
      rw [dataToCome_sqz ht A hsqz, hsqi]
      rfl

/-- The rounds done and the rounds then left are the rounds there were to do (R66, R67). -/
theorem rounds_toCome {n k : Nat} (h : n + k ≤ Config.nRounds) (A : Lanes) :
    rounds (n + k) (Config.nRounds - (n + k)) (rounds n k A) = rounds n (Config.nRounds - n) A := by
  have hsplit : Config.nRounds - n = k + (Config.nRounds - (n + k)) := by omega
  rw [hsplit, rounds_add]

/-- The bytes left are the next one, then those after it. -/
theorem stRead_next (A : Lanes) {i n : Nat} (h : i < n) :
    stRead A i (n - i) = stByte A i :: stRead A (i + 1) (n - (i + 1)) := by
  have hsplit : n - i = 1 + (n - (i + 1)) := by omega
  rw [hsplit, stRead_add, stRead_one]
  rfl

/-! ### an edge of the sequencer settles to the same state -/

/-- An edge that keeps the lanes to come, and the DATA responses to come but for those it emits. -/
theorem settle_advance {j : Job} (emitted : List Rsp) (hjob : s.job = some j) (hadv : Advances s t)
    (hrq : t.rq = s.rq ++ emitted.map Rsp.word) (hlanes : lanesToCome t = lanesToCome s)
    (hdata : dataToCome s (lanesToCome s) = emitted ++ dataToCome t (lanesToCome s)) : settle t = settle s := by
  have hjob' : t.job = some j := by rw [hadv]; exact hjob
  rw [settle_of_job hjob', settle_of_job hjob, hlanes, hdata]
  exact completed_advance j _ _ hadv hrq

theorem settle_advance_silent {j : Job} (hjob : s.job = some j) (hadv : Advances s t) (hrq : t.rq = s.rq)
    (hlanes : lanesToCome t = lanesToCome s) (hdata : dataToCome t (lanesToCome s) = dataToCome s (lanesToCome s)) :
    settle t = settle s :=
  settle_advance [] hjob hadv (by simpa using hrq) hlanes hdata.symm

theorem squeezeOne_advances (size : Byte) (s : State) : Advances s (squeezeOne size s) := by
  unfold Advances squeezeOne
  split <;> rfl

@[simp] theorem squeezeOne_lanes (size : Byte) (s : State) : (squeezeOne size s).lanes = s.lanes := by
  unfold squeezeOne; split <;> rfl
@[simp] theorem squeezeOne_job (size : Byte) (s : State) : (squeezeOne size s).job = s.job := by
  unfold squeezeOne; split <;> rfl

/-- SQZ is left with the last byte (R18, R21). -/
theorem squeezeOne_phase (size : Byte) (s : State) :
    (s.sqi + 1 = sizeOperand size ∧ (squeezeOne size s).phase = .respond) ∨
    ((squeezeOne size s).phase = s.phase ∧ (squeezeOne size s).sqi = s.sqi + 1) := by
  unfold squeezeOne
  split
  case isTrue hlast => exact .inl ⟨hlast, rfl⟩
  case isFalse => exact .inr ⟨rfl, rfl⟩

theorem dataToCome_squeezeOne {size : Byte} (hphase : s.phase = .sqz) (hjob : s.job = some (.digest size))
    (hsqi : s.sqi < sizeOperand size) :
    dataToCome s s.lanes = [.data (stByte s.lanes s.sqi)] ++ dataToCome (squeezeOne size s) s.lanes := by
  have hjob' : (squeezeOne size s).job = some (.digest size) := (squeezeOne_job size s).trans hjob
  rw [dataToCome_sqz hjob _ hphase, stRead_next _ hsqi]
  rcases squeezeOne_phase size s with ⟨hlast, hrespond⟩ | ⟨hsame, hsqi'⟩
  · rw [dataToCome_respond _ hrespond, hlast, Nat.sub_self]
    rfl
  · rw [dataToCome_sqz hjob' _ (hsame.trans hphase), hsqi']
    rfl

theorem settle_squeezeOne {size : Byte} (hphase : s.phase = .sqz) (hjob : s.job = some (.digest size))
    (hsqi : s.sqi < sizeOperand size) : settle (squeezeOne size s) = settle s := by
  have hlanes : lanesToCome s = s.lanes := lanesToCome_permuted (.inl hphase)
  have hphase' : (squeezeOne size s).phase = .sqz ∨ (squeezeOne size s).phase = .respond :=
    (squeezeOne_phase size s).symm.imp (fun hmore => hmore.1.trans hphase) (fun hlast => hlast.2)
  refine settle_advance [.data (stByte s.lanes s.sqi)] hjob (squeezeOne_advances size s) (squeezeOne_rq size s) ?_ ?_
  · rw [hlanes, lanesToCome_permuted hphase', squeezeOne_lanes]
  · rw [hlanes]
    exact dataToCome_squeezeOne hphase hjob hsqi

theorem sequencerEdge_settle (h : sequencerEdge s = .next t) : settle t = settle s := by
  cases sequencerEdge_outcome h with
  | hold => rfl
  | xorb j hphase hjob =>
    refine settle_advance_silent hjob rfl rfl ?_ (dataToCome_enterPerm hjob hphase _ _)
    rw [lanesToCome_perm rfl, lanesToCome_xorb hphase, absorbBlock, permute_eq_rounds]
    rfl
  | permRounds j hphase hjob hblock hrnd =>
    refine settle_advance_silent hjob rfl rfl ?_ rfl
    rw [lanesToCome_perm (by exact hphase), lanesToCome_perm hphase]
    exact rounds_toCome hrnd.le _
  | permEnd j hphase hjob hblock hrnd =>
    refine settle_advance_silent hjob rfl rfl ?_
      (dataToCome_afterPerm _ hblock hjob (by exact hjob) hphase rfl rfl)
    rw [lanesToCome_permuted (phaseAfterPerm_permuted j), lanesToCome_perm hphase, ← hrnd, Nat.add_sub_cancel_left]
  | digestByte size hphase hjob hsqi => exact settle_squeezeOne hphase hjob hsqi
  | complete j hphase hjob =>
    rw [settle_of_no_job rfl, settle_of_job hjob, dataToCome_respond _ hphase, lanesToCome_permuted (.inr hphase),
      completed_nil]

end ToCome

/-! ### an accepting edge settles to the atomic command -/

section Accept
variable {w : Word} {s t : State}

theorem toIdle_eq_self (hphase : s.phase = .idle) (hjob : s.job = none) (hrnd : s.rnd = 0) (hsqi : s.sqi = 0) :
    toIdle s = s := by
  obtain ⟨⟩ := s
  simp_all [toIdle]

theorem EngineInv.toIdle_of_idle (hs : EngineInv s) (hidle : s.phase = .idle) : toIdle s = s := by
  obtain ⟨-, hphase, -⟩ := hs
  obtain ⟨hjob, -, hrnd, hsqi⟩ := (phaseInv_idle hidle).1 hphase
  exact toIdle_eq_self hidle hjob hrnd hsqi

theorem EngineInv.settle_of_idle (hs : EngineInv s) (hidle : s.phase = .idle) : settle s = s := by
  obtain ⟨-, hphase, -⟩ := hs
  obtain ⟨hjob, -⟩ := (phaseInv_idle hidle).1 hphase
  exact settle_of_no_job hjob

theorem sendWord_phase (h : sendWord w s = .next t) : t.phase = s.phase := by
  rcases sendWord_outcome h with ⟨i, -, hexec⟩ | ⟨-, rfl⟩
  · obtain ⟨hphase, -⟩ := exec_frame hexec
    exact hphase
  · rfl

/-- By what is left to do: a completion word, a full block, or a digest. -/
theorem startWord_settle (h : startWord w s = .next t) : ∃ u, sendWord w s = .next u ∧ settle t = toIdle u := by
  rcases startWord_cases h with ⟨r, u, -, -, hsend, rfl⟩ | ⟨data, -, -, -, hsend, rfl⟩ |
    ⟨size, -, -, -, -, hsend, rfl⟩
  all_goals refine ⟨_, hsend, ?_⟩
  · rw [settle_of_job rfl, dataToCome_respond _ rfl, lanesToCome_permuted (.inr rfl), completed_nil]
    rfl
  · rw [settle_of_job rfl, dataToCome_block rfl, lanesToCome_xorb rfl, completed_nil]
    rfl
  · rw [settle_of_job rfl, dataToCome_digest rfl _ (.inl rfl), lanesToCome_xorb rfl]
    rfl

theorem sendWord_eq_settle_startWord (hs : EngineInv s) (hidle : s.phase = .idle) (h : startWord w s = .next t) :
    sendWord w s = .next (settle t) := by
  obtain ⟨u, hsend, hsettle⟩ := startWord_settle h
  have hu : toIdle u = u := (sendWord_engineInv hsend hidle hs).toIdle_of_idle ((sendWord_phase hsend).trans hidle)
  rw [hsettle, hu, hsend]

end Accept

/-! ### a clock edge without reset -/

section Edge
variable {p : Pins} {s t : State}

theorem cmdReady_iff (hrst : p.rst = false) : cmdReady p s = true ↔ s.phase = .idle := by
  simp [cmdReady, hrst]

theorem clockEdge_accepts_or_runs (hrst : p.rst = false) (h : clockEdge p s = .next t) :
    (s.phase = .idle ∧ p.cmdValid = true ∧ startWord p.cmd (portEdge p s) = .next t) ∨
    (¬(s.phase = .idle ∧ p.cmdValid = true) ∧ sequencerEdge (portEdge p s) = .next t) := by
  rcases clockEdge_cases h with ⟨hr, -⟩ | ⟨-, -, hphase, hvalid, ht⟩ | ⟨-, -, hidle, ht⟩
  · cases hr.symm.trans hrst
  · exact .inl ⟨hphase, hvalid, ht⟩
  · exact .inr ⟨hidle, ht⟩

theorem clockEdge_engineInv (hs : EngineInv s) (hrst : p.rst = false) (h : clockEdge p s = .next t) :
    EngineInv t := by
  rcases clockEdge_accepts_or_runs hrst h with ⟨hphase, -, ht⟩ | ⟨-, ht⟩
  · exact startWord_engineInv ht (by simpa using hphase) (hs.portEdge p)
  · exact sequencerEdge_engineInv ht (hs.portEdge p)

/-- The accepting edge after the ports is the atomic command after the ports, and the command does not read them. -/
theorem startWord_portEdge_observe (hs : EngineInv s) (hphase : s.phase = .idle)
    (ht : startWord p.cmd (portEdge p s) = .next t) :
    ∃ u, sendWord p.cmd s = .next u ∧ observe (settle t) = observe u := by
  have hsend := sendWord_eq_settle_startWord (hs.portEdge p) (by simpa using hphase) ht
  obtain ⟨u, hu, hobs⟩ := sendWord_observe hsend (observe_portEdge p s).symm
  exact ⟨u, hu, hobs.symm⟩

theorem sequencerEdge_portEdge_observe (ht : sequencerEdge (portEdge p s) = .next t) :
    observe (settle t) = observe (settle s) := by
  rw [sequencerEdge_settle ht]
  exact settle_observe (observe_portEdge p s)

end Edge

/-- Settles O46: the edge accepts the word or is the sequencer's. -/
theorem clockEdgeRefinesOneCommand : Obligations.ClockEdgeRefinesOneCommand := by
  intro p s t hs hrst h
  rw [cmdReady_iff hrst]
  rcases clockEdge_accepts_or_runs hrst h with ⟨hphase, hvalid, ht⟩ | ⟨hidle, ht⟩
  · exact ⟨fun _ _ => startWord_portEdge_observe hs hphase ht, fun hidle => absurd ⟨hphase, hvalid⟩ hidle⟩
  · exact ⟨fun hphase hvalid => absurd ⟨hphase, hvalid⟩ hidle, fun _ => sequencerEdge_portEdge_observe ht⟩

/-! ### a run of clock edges -/

section Run
variable {p : Pins} {s t : State}

theorem runEdges_cons {ps : List Pins} (h : runEdges (p :: ps) s = .next t) :
    ∃ u, clockEdge p s = .next u ∧ runEdges ps u = .next t := by
  rw [runEdges] at h
  split at h
  case h_1 u hu => exact ⟨u, hu, h⟩
  all_goals cases h

theorem sendAll_cons {w : Word} (h : sendWord w s = .next t) (ws : List Word) :
    sendAll (w :: ws) s = sendAll ws t := by
  rw [sendAll, h]

theorem acceptedWords_cons (ps : List Pins) (h : clockEdge p s = .next t) :
    acceptedWords (p :: ps) s =
      (if cmdReady p s = true ∧ p.cmdValid = true then [p.cmd] else []) ++ acceptedWords ps t := by
  simp [acceptedWords, h]

/-- The simulation along a run, from any state of the engine and any `v` the host cannot tell from the settled one. -/
theorem runEdges_observe {ps : List Pins} {v : State} (hs : EngineInv s) (hrst : ∀ p ∈ ps, p.rst = false)
    (h : runEdges ps s = .next t) (hv : observe v = observe (settle s)) :
    ∃ u, sendAll (acceptedWords ps s) v = .next u ∧ observe (settle t) = observe u := by
  induction ps generalizing s v with
  | nil =>
    cases h
    exact ⟨v, rfl, hv.symm⟩
  | cons p ps ih =>
    obtain ⟨s', hedge, hrun⟩ := runEdges_cons h
    obtain ⟨hp, hps⟩ := List.forall_mem_cons.1 hrst
    have hs' : EngineInv s' := clockEdge_engineInv hs hp hedge
    obtain ⟨haccept, hquiet⟩ := clockEdgeRefinesOneCommand p s s' hs hp hedge
    rw [acceptedWords_cons ps hedge]
    split
    case isTrue hacc =>
      obtain ⟨hready, hvalid⟩ := hacc
      obtain ⟨u, hu, hobs⟩ := haccept hready hvalid
      rw [hs.settle_of_idle ((cmdReady_iff hp).1 hready)] at hv
      obtain ⟨v', hsend, hv'⟩ := sendWord_observe hu hv
      rw [List.singleton_append, sendAll_cons hsend]
      exact ih hs' hps hrun (hv'.trans hobs.symm)
    case isFalse hno => exact ih hs' hps hrun (hv.trans (hquiet hno).symm)

end Run

/-- Settles O47: the simulation from an idle state, which is its own settled state. -/
theorem pinRunRefinesCommandRun : Obligations.PinRunRefinesCommandRun := by
  intro ps s t hs hidle hrst h
  exact runEdges_observe hs hrst h (congrArg observe (hs.settle_of_idle hidle).symm)

end Sys2Proof.Machine
end

section
/-! PROOFS. Encoding (spec/30_encoding.md): decoder and encoder are inverse, the rows of the opcode map, which words are legal and how
many (R45 to R49). -/

namespace Sys2Proof

/-! ### decoder and encoder (R47, R49) -/

/-- Decoding reads the fields the encoder built the word of. -/
theorem decode_encode (i : Instr) : decode (encode i) = .ok i := by
  cases i with
  | reset => rfl
  | init m => cases m <;> rfl
  | absorb data => simp [decode, encode, cmdZero_cmdWord, cmdOp_cmdWord, cmdArg_cmdWord]
  | final size => simp [decode, encode, cmdZero_cmdWord, cmdOp_cmdWord, cmdArg_cmdWord]
  | qdsz => rfl
  | qrate => rfl

/-- Settles O1: command by command, the fields read back. -/
theorem decodeOfEncodeIsTheCommand : Obligations.DecodeOfEncodeIsTheCommand := decode_encode

theorem encode_of_decode {w : Word} {i : Instr} (h : decode w = .ok i) : encode i = w := by
  obtain ⟨hzero, hfields⟩ := decode_cases h
  rw [← cmdWord_fields hzero]
  rcases hfields with ⟨hop, harg, rfl⟩ | ⟨hop, hhigh, rfl⟩ | ⟨hop, rfl⟩ | ⟨hop, rfl⟩ | ⟨hop, harg, rfl⟩ | ⟨hop, harg, rfl⟩
  · rw [hop, harg, encode]
  · rw [hop, encode, initArg_eq _ hhigh]
  · rw [hop, encode]
  · rw [hop, encode]
  · rw [hop, harg, encode]
  · rw [hop, harg, encode]

/-- Settles O2: the fields the decoder found are those the encoder writes. -/
theorem encodeOfDecodeIsTheWord : Obligations.EncodeOfDecodeIsTheWord := fun _ _ => encode_of_decode

theorem decode_ok_iff {w : Word} {i : Instr} : decode w = .ok i ↔ w = encode i :=
  ⟨fun h => (encode_of_decode h).symm, fun h => h ▸ decode_encode i⟩

theorem encode_injective : Function.Injective encode := fun i j h =>
  Except.ok.inj ((decode_encode i).symm.trans ((congrArg decode h).trans (decode_encode j)))

theorem encode_init (m : Preset) : encode (.init m) = 0x2000#16 ||| m.code.setWidth 16 := by
  cases m <;> rfl

theorem encode_absorb (data : Byte) : encode (.absorb data) = 0x3000#16 ||| data.setWidth 16 := by
  rw [encode, cmdWord_or]
  rfl

theorem encode_final (size : Byte) : encode (.final size) = 0x4000#16 ||| size.setWidth 16 := by
  rw [encode, cmdWord_or]
  rfl

/-- Settles O5: the words written out are the encodings; each illegal one breaks one condition of R48. -/
theorem sampleWordsDecodeAsListed : Obligations.SampleWordsDecodeAsListed :=
  ⟨decode_encode .reset, decode_encode (.init .p384), decode_encode (.absorb 0x80), decode_encode (.final 32),
    decode_encode .qdsz, decode_encode .qrate, rfl, rfl, rfl, rfl⟩

/-! ### legal words (R48) -/

theorem isLegal_iff_decode {w : Word} : isLegal w = true ↔ ∃ i, decode w = .ok i := by
  unfold isLegal
  cases decode w <;> simp [Except.toBool]

theorem isLegal_iff_encode {w : Word} : isLegal w = true ↔ ∃ i, encode i = w := by
  simp only [isLegal_iff_decode, decode_ok_iff, @eq_comm _ w]

theorem isLegal_eq_false_iff {w : Word} : isLegal w = false ↔ ∃ e, decode w = .error e := by
  unfold isLegal
  cases decode w <;> simp [Except.toBool]

@[simp] theorem isLegal_encode (i : Instr) : isLegal (encode i) = true := isLegal_iff_encode.2 ⟨i, rfl⟩

/-- The legal words by their fields (R46, R47). -/
theorem isLegal_iff_fields {w : Word} : isLegal w = true ↔ cmdZero w = 0 ∧
    ((cmdOp w = 1 ∧ cmdArg w = 0) ∨ (cmdOp w = 2 ∧ (cmdArg w).extractLsb' 2 6 = 0) ∨ cmdOp w = 3 ∨ cmdOp w = 4 ∨
      (cmdOp w = 5 ∧ cmdArg w = 0) ∨ (cmdOp w = 6 ∧ cmdArg w = 0)) := by
  constructor
  · intro h
    obtain ⟨i, hdec⟩ := isLegal_iff_decode.1 h
    obtain ⟨hzero, hfields⟩ := decode_cases hdec
    exact ⟨hzero, by tauto⟩
  · rintro ⟨hzero, hfields⟩
    rw [← cmdWord_fields hzero]
    rcases hfields with ⟨hop, harg⟩ | ⟨hop, hhigh⟩ | hop | hop | ⟨hop, harg⟩ | ⟨hop, harg⟩
    · rw [hop, harg]; exact isLegal_encode .reset
    · rw [hop, ← initArg_eq _ hhigh]; exact isLegal_encode (.init _)
    · rw [hop]; exact isLegal_encode (.absorb _)
    · rw [hop]; exact isLegal_encode (.final _)
    · rw [hop, harg]; exact isLegal_encode .qdsz
    · rw [hop, harg]; exact isLegal_encode .qrate

/-! ### the opcode map (R47) -/

theorem word_eq_append (w : Word) : w = cmdOp w ++ (cmdZero w ++ cmdArg w) := by
  unfold cmdOp cmdZero cmdArg
  rw [BitVec.extractLsb'_append_extractLsb'_eq_extractLsb' (start₂ := 8) (start₁ := 0) (len₁ := 8) rfl,
    BitVec.extractLsb'_append_extractLsb'_eq_extractLsb' (by rfl)]
  simp

/-- A word is its three fields. -/
theorem word_eq_iff_fields {v w : Word} : v = w ↔ cmdOp v = cmdOp w ∧ cmdZero v = cmdZero w ∧ cmdArg v = cmdArg w := by
  refine ⟨fun h => h ▸ ⟨rfl, rfl, rfl⟩, fun ⟨hop, hzero, harg⟩ => ?_⟩
  rw [word_eq_append v, word_eq_append w, hop, hzero, harg]

theorem cmdOp_and (v w : Word) : cmdOp (v &&& w) = cmdOp v &&& cmdOp w := BitVec.extractLsb'_and
theorem cmdZero_and (v w : Word) : cmdZero (v &&& w) = cmdZero v &&& cmdZero w := BitVec.extractLsb'_and
theorem cmdArg_and (v w : Word) : cmdArg (v &&& w) = cmdArg v &&& cmdArg w := BitVec.extractLsb'_and

/-- The mask of a row: all of `op` and `zero`, and `m` of `arg`. -/
def cmdMask (m : Byte) : Word := 0xFF00#16 ||| m.setWidth 16

theorem cmdMask_fields : ∀ m : Byte, cmdOp (cmdMask m) = 0xF ∧ cmdZero (cmdMask m) = 0xF ∧ cmdArg (cmdMask m) = m := by decide

theorem nibble_and_mask (n : BitVec 4) : n &&& 0xF = n := BitVec.and_allOnes

theorem opRows_eq : opRows =
    [⟨"RESET", cmdWord 1 0, cmdMask 0xFF⟩, ⟨"INIT", cmdWord 2 0, cmdMask 0xFC⟩, ⟨"ABSORB", cmdWord 3 0, cmdMask 0⟩,
     ⟨"FINAL", cmdWord 4 0, cmdMask 0⟩, ⟨"QDSZ", cmdWord 5 0, cmdMask 0xFF⟩, ⟨"QRATE", cmdWord 6 0, cmdMask 0xFF⟩] := rfl

/-- A row asks for its `op`, for `zero` 0 and for the masked `arg`. -/
theorem covers_iff {name : String} {op : BitVec 4} {arg m : Byte} {w : Word} :
    OpRow.covers ⟨name, cmdWord op arg, cmdMask m⟩ w = true ↔ cmdOp w = op ∧ cmdZero w = 0 ∧ cmdArg w &&& m = arg := by
  obtain ⟨hop, hzero, harg⟩ := cmdMask_fields m
  rw [OpRow.covers, beq_iff_eq, word_eq_iff_fields, cmdOp_and, cmdZero_and, cmdArg_and, cmdOp_cmdWord, cmdZero_cmdWord,
    cmdArg_cmdWord, hop, hzero, harg, nibble_and_mask, nibble_and_mask]

theorem and_modeMask_eq_zero : ∀ a : Byte, a &&& 0xFC = 0 ↔ a.extractLsb' 2 6 = 0 := by decide

theorem and_argMask (a : Byte) : a &&& 0xFF = a := BitVec.and_allOnes

/-- A word that a row covers is legal: the row asks of the fields what R46 asks. -/
theorem isLegal_of_covers {row : OpRow} {w : Word} (hrow : row ∈ opRows) (h : row.covers w = true) : isLegal w = true := by
  rw [isLegal_iff_fields]
  simp only [opRows_eq, List.mem_cons, List.not_mem_nil, or_false] at hrow
  rcases hrow with rfl | rfl | rfl | rfl | rfl | rfl <;> obtain ⟨hop, hzero, harg⟩ := covers_iff.1 h <;>
    refine ⟨hzero, ?_⟩
  · exact .inl ⟨hop, by rwa [and_argMask] at harg⟩
  · exact .inr (.inl ⟨hop, (and_modeMask_eq_zero _).1 harg⟩)
  · exact .inr (.inr (.inl hop))
  · exact .inr (.inr (.inr (.inl hop)))
  · exact .inr (.inr (.inr (.inr (.inl ⟨hop, by rwa [and_argMask] at harg⟩))))
  · exact .inr (.inr (.inr (.inr (.inr ⟨hop, by rwa [and_argMask] at harg⟩))))

theorem modeArg_and_modeMask (m : Preset) : m.code.setWidth 8 &&& 0xFC#8 = 0#8 := by cases m <;> rfl

/-- The word of a command is covered by the row with its `op`. -/
theorem rows_covering_encode (i : Instr) : (opRows.filter (·.covers (encode i))).map (·.mnemonic) = [i.mnemonic] := by
  cases i <;> simp [opRows_eq, covers_iff, encode, cmdOp_cmdWord, cmdZero_cmdWord, cmdArg_cmdWord, modeArg_and_modeMask,
    Instr.mnemonic]

theorem rows_covering_illegal {w : Word} (h : isLegal w = false) : opRows.filter (·.covers w) = [] :=
  List.filter_eq_nil_iff.2 fun _ hrow hcovers => by simp [isLegal_of_covers hrow hcovers] at h

/-- Settles O3: the match values are encodings; a word that decodes is one, and a word that a row covers decodes. -/
theorem opcodeMapRowsAreDisjoint : Obligations.OpcodeMapRowsAreDisjoint := by
  refine ⟨fun m => ?init, fun d => ?absorb, fun n => ?final, decode_encode .reset, decode_encode .qdsz,
    decode_encode .qrate, fun w i h => ?one, fun w e h => rows_covering_illegal (isLegal_eq_false_iff.2 ⟨e, h⟩)⟩
  case init => rw [← encode_init, decode_encode]
  case absorb => rw [← encode_absorb, decode_encode]
  case final => rw [← encode_final, decode_encode]
  case one => rw [← encode_of_decode h, rows_covering_encode]

/-! ### the number of legal words (R48) -/

/-- Every command once: RESET, the four INIT, the 256 ABSORB, the 256 FINAL, QDSZ, QRATE. -/
def allInstrs : List Instr :=
  .reset :: .qdsz :: .qrate :: ([Preset.p224, .p256, .p384, .p512].map .init ++
    ((List.finRange 256).map (.absorb ∘ BitVec.ofFin) ++ (List.finRange 256).map (.final ∘ BitVec.ofFin)))

theorem length_allInstrs : allInstrs.length = 519 := by simp [allInstrs]

theorem mem_allInstrs (i : Instr) : i ∈ allInstrs := by
  cases i with
  | init m => cases m <;> simp [allInstrs]
  | _ => simp [allInstrs]

theorem nodup_allInstrs : allInstrs.Nodup := by
  have habsorb : (Instr.absorb ∘ BitVec.ofFin).Injective := fun _ _ h => by simpa using h
  have hfinal : (Instr.final ∘ BitVec.ofFin).Injective := fun _ _ h => by simpa using h
  simp [allInstrs, List.nodup_append, List.nodup_finRange, List.nodup_map_iff, habsorb, hfinal]

/-- The numbers of the legal words are those of the 519 encodings. -/
theorem filter_isLegal_perm :
    ((List.range 65536).filter fun n => isLegal (BitVec.ofNat 16 n)).Perm (allInstrs.map fun i => (encode i).toNat) := by
  have hinj : Function.Injective fun i => (encode i).toNat := fun i j h => encode_injective (BitVec.eq_of_toNat_eq h)
  rw [List.perm_ext_iff_of_nodup (List.nodup_range.filter _) (nodup_allInstrs.map hinj)]
  intro n
  simp only [List.mem_filter, List.mem_range, List.mem_map, mem_allInstrs, true_and, isLegal_iff_encode]
  constructor
  · rintro ⟨hn, i, hi⟩
    exact ⟨i, by rw [hi, BitVec.toNat_ofNat, Nat.mod_eq_of_lt hn]⟩
  · rintro ⟨i, rfl⟩
    exact ⟨(encode i).isLt, i, (BitVec.ofNat_toNat 16 (encode i)).trans (BitVec.setWidth_eq _) |>.symm⟩

theorem countP_isLegal : (List.range 65536).countP (fun n => isLegal (BitVec.ofNat 16 n)) = 519 := by
  rw [List.countP_eq_length_filter, filter_isLegal_perm.length_eq, List.length_map, length_allInstrs]

theorem countP_not {α : Type} (p : α → Bool) (l : List α) : l.countP (fun a => !p a) = l.length - l.countP p := by
  simp [List.length_eq_countP_add_countP p]

theorem countP_not_isLegal : (List.range 65536).countP (fun n => !isLegal (BitVec.ofNat 16 n)) = 65017 := by
  rw [countP_not fun n => isLegal (BitVec.ofNat 16 n), countP_isLegal, List.length_range]

/-! ### illegal words (R48, R87) -/

/-- `op` is unassigned or one of the six. -/
theorem op_cases : ∀ op : BitVec 4, (op = 0 ∨ 7 ≤ op) ∨ op = 1 ∨ op = 2 ∨ op = 3 ∨ op = 4 ∨ op = 5 ∨ op = 6 := by decide

theorem op_unassigned : ∀ op : BitVec 4, op = 0 ∨ 7 ≤ op → op ≠ 1 ∧ op ≠ 2 ∧ op ≠ 3 ∧ op ≠ 4 ∧ op ≠ 5 ∧ op ≠ 6 := by decide

theorem isLegal_eq_false_iff_fields (w : Word) : isLegal w = false ↔
    (cmdOp w = 0x0#4 ∨ 0x7#4 ≤ cmdOp w) ∨ cmdZero w ≠ 0#4 ∨
    ((cmdOp w = 0x1#4 ∨ cmdOp w = 0x5#4 ∨ cmdOp w = 0x6#4) ∧ cmdArg w ≠ 0#8) ∨
    (cmdOp w = 0x2#4 ∧ (cmdArg w).extractLsb' 2 6 ≠ 0#6) := by
  rw [← Bool.not_eq_true, isLegal_iff_fields]
  rcases op_cases (cmdOp w) with hop | hop | hop | hop | hop | hop | hop
  · have := op_unassigned _ hop
    simp_all
  all_goals simp [hop, imp_iff_not_or]

end Sys2Proof

namespace Sys2Proof.Machine

/-- The accepting edge of an illegal word (R48): the word's answer is left to emit. -/
theorem startWord_error {w : Word} {e : DecodeError} (h : decode w = .error e) (s : State) :
    startWord w s = startReply (.err .illegalCommand) s := by
  simp [startWord, h]

theorem sendWord_illegal {w : Word} (h : isLegal w = false) (s : State) :
    sendWord w s = .next { s with rq := s.rq ++ [0xF002#16] } := by
  obtain ⟨e, hdec⟩ := isLegal_eq_false_iff.1 h
  rw [sendWord_error hdec, emit, word_err]
  rfl

/-- An idle engine accepts an illegal word presented with nothing held. -/
theorem clockEdge_illegal {p : Pins} {s : State} (h : isLegal p.cmd = false) (hphase : s.phase = .idle)
    (hheld : s.offered = none) (hrst : p.rst = false) (hvalid : p.cmdValid = true) :
    clockEdge p s = .next { portEdge p s with phase := .respond, job := some (.reply (.err .illegalCommand)) } := by
  obtain ⟨e, hdec⟩ := isLegal_eq_false_iff.1 h
  rw [clockEdge_accept hrst (holdBroken_eq_false (.inl hheld)) hphase hvalid, startWord_error hdec, startReply]

/-- Settles O4: the fields of a legal word, the 519 encodings counted, and the answer to a word that does not decode. -/
theorem illegalWordsAreCountedAndRefused : Obligations.IllegalWordsAreCountedAndRefused :=
  ⟨isLegal_eq_false_iff_fields, countP_isLegal, countP_not_isLegal, rfl, rfl, fun _ s h => sendWord_illegal h s,
    fun _ _ h hphase hheld hrst hvalid =>
      ⟨(cmdReady_iff hrst).2 hphase, clockEdge_illegal h hphase hheld hrst hvalid⟩⟩

end Sys2Proof.Machine
end

section
/-! PROOFS. Encoding, the other words (spec/30_encoding.md): response words read back (R50, R85), assembler lines expand to command
words (R53, R54), a command ends with one completion word (R51), a response is taken once (R44). -/

namespace Sys2Proof

/-! ### response words (R50, R85) -/

theorem Cause.code_of_ofCode {b : Byte} {c : Cause} (h : Cause.ofCode b = some c) : c.code = b := by
  unfold Cause.ofCode at h
  split at h <;> cases h <;> refine BitVec.eq_of_toNat_eq ?_ <;> simp_all [Cause.code]

/-- A word that reads as a response has that response's fields. -/
theorem Rsp.ofWord_fields {w : Word} {r : Rsp} (h : Rsp.ofWord w = some r) :
    cmdZero w = 0 ∧ cmdOp w = r.kind ∧ cmdArg w = r.payloadByte := by
  unfold Rsp.ofWord at h
  split at h
  · cases h
  next hzero =>
    refine ⟨not_not.1 hzero, ?_⟩
    split at h
    case h_1 hkind =>
      split at h
      · cases h; exact ⟨nibble_eq hkind, ‹_›⟩
      · cases h
    case h_2 hkind => cases h; exact ⟨nibble_eq hkind, rfl⟩
    case h_3 hkind => cases h; exact ⟨nibble_eq hkind, rfl⟩
    case h_4 hkind => cases h; exact ⟨nibble_eq hkind, rfl⟩
    case h_5 hkind =>
      obtain ⟨c, hc, rfl⟩ := Option.map_eq_some_iff.1 h
      exact ⟨nibble_eq hkind, (Cause.code_of_ofCode hc).symm⟩
    case h_6 => cases h

theorem Rsp.word_of_ofWord {w : Word} {r : Rsp} (h : Rsp.ofWord w = some r) : r.word = w := by
  obtain ⟨hzero, hkind, hpayload⟩ := Rsp.ofWord_fields h
  rw [Rsp.word_fields, ← hkind, ← hpayload, cmdWord_fields hzero]

/-- Settles O6: a response and its word have the same fields. -/
theorem responseWordsReadBack : Obligations.ResponseWordsReadBack :=
  ⟨fun r => ⟨Rsp.ofWord_word r, cmdZero_word r⟩, fun _ _ => Rsp.word_of_ofWord, word_ack, word_data, word_done, word_val,
    word_err .invalidArgument, word_err .illegalCommand, word_err .consumed⟩

/-! ### assembler lines (R53, R54) -/

theorem asmInit_of_ofName {q : Nat} {m : Preset} (h : Preset.ofName q = some m) : asmInit q = [encode (.init m)] := by
  simp [asmInit, h]

theorem isLegal_asmInit (q : Nat) : ∀ w ∈ asmInit q, isLegal w = true := by
  simp only [asmInit, Option.mem_toList, Option.map_eq_some_iff]
  rintro w ⟨m, -, rfl⟩
  exact isLegal_encode _

theorem isLegal_asmUpdate (bs : List Nat) : ∀ w ∈ asmUpdate bs, isLegal w = true := by
  simp [asmUpdate]

theorem isLegal_asmFinalFull (p : Preset) : ∀ w ∈ asmFinalFull p, isLegal w = true := by
  simp [asmFinalFull]

/-- Every line but `.word` expands to encodings. -/
theorem isLegal_asmWords (p : Preset) {a : Asm} (h : ∀ w, a ≠ .word w) : ∀ w ∈ a.words p, isLegal w = true := by
  cases a with
  | word w => exact absurd rfl (h w)
  | init q => exact isLegal_asmInit q
  | absorb b => exact isLegal_asmUpdate [b]
  | update bs => exact isLegal_asmUpdate bs
  | updateText t => exact isLegal_asmUpdate _
  | finalFull => exact isLegal_asmFinalFull p
  | hash q bs =>
    intro w hw
    rw [Asm.words, List.mem_append, List.mem_append] at hw
    rcases hw with (hw | hw) | hw
    · exact isLegal_asmInit q w hw
    · exact isLegal_asmUpdate bs w hw
    · exact isLegal_asmFinalFull _ w hw
  | reset | final | qdsz | qrate => simp [Asm.words]

theorem asmUpdate_bytes (bs : List Byte) : asmUpdate (bs.map BitVec.toNat) = bs.map fun b => 0x3000#16 ||| b.setWidth 16 := by
  simp [asmUpdate, encode_absorb]

theorem presetAfterWord_init (p m : Preset) : presetAfterWord p (encode (.init m)) = m := by
  rw [presetAfterWord, decode_encode]

theorem presetAfterWord_absorb (p : Preset) (data : Byte) : presetAfterWord p (encode (.absorb data)) = p := by
  rw [presetAfterWord, decode_encode]

theorem presetAfter_init {q : Nat} {m : Preset} (h : Preset.ofName q = some m) (p : Preset) :
    (Asm.init q).presetAfter p = m := by
  rw [Asm.presetAfter, Asm.words, asmInit_of_ofName h]
  exact presetAfterWord_init p m

/-- UPDATE leaves the preset in force. -/
theorem presetAfter_update (bs : List Nat) (p : Preset) : (Asm.update bs).presetAfter p = p := by
  rw [Asm.presetAfter, Asm.words]
  induction bs with
  | nil => rfl
  | cons b bs ih => rwa [asmUpdate, List.map_cons, List.foldl_cons, presetAfterWord_absorb]

/-- HASH is INIT, UPDATE and FINALFULL: the preset in force at FINALFULL is the one INIT names. -/
theorem assemble_hash {q : Nat} {m : Preset} (h : Preset.ofName q = some m) (p : Preset) (bs : List Nat) :
    assemble p [.hash q bs] = assemble p [.init q, .update bs, .finalFull] := by
  simp only [assemble, presetAfter_init h, presetAfter_update, Asm.words, h, Option.getD_some, List.append_nil,
    List.append_assoc]

/-- Settles O7: every line but `.word` is made of encodings; the preset in force is followed through HASH's expansion. -/
theorem assemblerLinesExpandToCommands : Obligations.AssemblerLinesExpandToCommands := by
  refine ⟨fun p a _ => isLegal_asmWords p, fun _ => asmUpdate_bytes, fun p q bs hwf => ?_⟩
  rw [Asm.wf, Bool.and_eq_true, Option.isSome_iff_exists] at hwf
  obtain ⟨⟨m, hm⟩, -⟩ := hwf
  exact assemble_hash hm p bs

end Sys2Proof

namespace Sys2Proof.Machine

/-! ### one completion word a command (R51) -/

/-- The DATA words a command emits: `size` for a FINAL that raises no error, none for any other. -/
def dataCount (i : Instr) (s : State) : Nat :=
  match i with
  | .final size => if finalError size s = none then sizeOperand size else 0
  | .reset | .init _ | .absorb _ | .qdsz | .qrate => 0

theorem wordError_final {w : Word} {size : Byte} (h : decode w = .ok (.final size)) (s : State) :
    wordError w s = finalError size s := by
  rw [wordError, h]
  exact if_congr decide_eq_true_iff.symm rfl rfl

theorem finalError_invalid {size : Byte} {s : State} (hsize : s.mode.digestSize < size.toNat) :
    finalError size s = some .invalidArgument := by
  simp [finalError, sizeExceeds, sizeOperand, hsize]

theorem finalError_consumed {size : Byte} {s : State} (hsize : size.toNat ≤ s.mode.digestSize) (hfin : s.fin = true) :
    finalError size s = some .consumed := by
  simp [finalError, sizeExceeds, sizeOperand, Nat.not_lt.2 hsize, hfin]

theorem finalError_none {size : Byte} {s : State} (hsize : size.toNat ≤ s.mode.digestSize) (hfin : s.fin = false) :
    finalError size s = none := by
  simp [finalError, sizeExceeds, sizeOperand, Nat.not_lt.2 hsize, hfin]

/-- From `s` to `t` RQ has grown by `n` DATA words and then one completion word (R51). -/
def Completes (n : Nat) (s t : State) : Prop :=
  ∃ (bytes : List Byte) (r : Rsp), t.rq = s.rq ++ bytes.map (fun b => (Rsp.data b).word) ++ [r.word] ∧
    r.isCompletion = true ∧ bytes.length = n

theorem completes_emit {r : Rsp} {s u : State} (hr : r.isCompletion = true) (hrq : u.rq = s.rq) :
    Completes 0 s (emit r u) := ⟨[], r, by simp [hrq], hr, rfl⟩

theorem completes_finalized (size : Byte) (s : State) :
    Completes (sizeOperand size) s (emit (.done size) (finalized size s)) :=
  ⟨stRead (finalized size s).lanes 0 (sizeOperand size), .done size, by simp [squeeze], rfl, stRead_length _ _ _⟩

theorem exec_completes {i : Instr} {s t : State} (h : exec i s = .next t) : Completes (dataCount i s) s t := by
  cases exec_outcome h with
  | finalInvalid size hsize =>
    rw [dataCount, finalError_invalid hsize]
    exact completes_emit rfl rfl
  | finalConsumed size hsize hfin =>
    rw [dataCount, finalError_consumed hsize hfin]
    exact completes_emit rfl rfl
  | finalDigest size hsize hfin =>
    rw [dataCount, finalError_none hsize hfin]
    exact completes_finalized size s
  | _ => exact completes_emit rfl rfl

/-- Settles O34: an illegal word answers ERR, a legal one runs its command to its completion word. -/
theorem oneCompletionWordPerCommand : Obligations.OneCompletionWordPerCommand := by
  intro w s hcnt
  obtain ⟨t, hsend⟩ := sendWord_next w hcnt
  rcases sendWord_outcome hsend with ⟨i, hdec, hexec⟩ | ⟨⟨e, hdec⟩, rfl⟩
  · obtain ⟨bytes, r, hrq, hr, hlen⟩ := exec_completes hexec
    refine ⟨t, bytes, r, hsend, hrq, hr, ?_⟩
    rw [hlen, hdec]
    cases i with
    | final size => simp only [dataCount, wordError_final hdec, sizeOperand]
    | _ => rfl
  · obtain ⟨bytes, r, hrq, hr, hlen⟩ := completes_emit (r := .err .illegalCommand) (u := s) rfl rfl
    refine ⟨_, bytes, r, hsend, hrq, hr, ?_⟩
    rw [hlen, hdec]

/-! ### taking a response (R44) -/

theorem takeRsp_nil {s : State} (h : s.rq = []) : takeRsp s = s := by simp [takeRsp, h]

theorem takeRsp_cons {s : State} {w : Word} {ws : List Word} (h : s.rq = w :: ws) :
    takeRsp s = { s with rq := ws, taken := s.taken ++ [w] } := by
  simp [takeRsp, h]

theorem step_take {rest : List HostMove} {s : State} (h : s.inbox = .take :: rest) :
    step s = .next (takeRsp { s with inbox := rest }) := by
  simp [step, h]

/-- Settles O38: by whether RQ holds a word. -/
theorem takeRemovesTheHead : Obligations.TakeRemovesTheHead := by
  intro rest s hin
  rw [step_take hin]
  exact ⟨fun _ _ hrq => congrArg _ (takeRsp_cons hrq), fun hrq => congrArg _ (takeRsp_nil hrq)⟩

end Sys2Proof.Machine
end

section
/-! PROOFS. Permutation, the constant tables (spec/40_permutation.md R57 to R59). -/

namespace Sys2Proof.Machine

/-! ### the round constants (R57) -/

/-- The shift register run once; what R57 says of the table is read off its entries. -/
theorem romRc_eq : romRc = #v[
    0x0000000000000001, 0x0000000000008082, 0x800000000000808A, 0x8000000080008000,
    0x000000000000808B, 0x0000000080000001, 0x8000000080008081, 0x8000000000008009,
    0x000000000000008A, 0x0000000000000088, 0x0000000080008009, 0x000000008000000A,
    0x000000008000808B, 0x800000000000008B, 0x8000000000008089, 0x8000000000008003,
    0x8000000000008002, 0x8000000000000080, 0x000000000000800A, 0x800000008000000A,
    0x8000000080008081, 0x8000000000008080, 0x0000000080000001, 0x8000000080008008] := by decide +kernel

/-- Settles O9: the table is the procedure's by definition, the rest by its entries. -/
theorem roundConstantsFollowTheProcedure : Obligations.RoundConstantsFollowTheProcedure := by
  refine ⟨rfl, ?_⟩
  rw [romRc_eq]
  decide

/-! ### rotation offsets and lane positions (R58, R59) -/

theorem romRho_eq_zero : ∀ i : Fin 25, romRho[i] = 0 → i = 0 := by decide

/-- The walk of R58 assigns the offsets of the table. -/
theorem rhoWalk_romRho : (rhoWalk 24 0 1 0).all (fun e => romRho[e.1]? == some e.2) = true := by decide

/-- The walk visits 24 different lanes. -/
theorem rhoWalk_nodup : ((rhoWalk 24 0 1 0).map Prod.fst).Nodup := by decide

/-- The walk never visits lane 0. -/
theorem rhoWalk_range : ((rhoWalk 24 0 1 0).map Prod.fst).all (fun i => decide (0 < i ∧ i < 25)) = true := by decide

/-- The lane at `(x, y)` moves to `(y, 2x + 3y mod 5)`. -/
theorem romPi_val : ∀ i : Fin 25, romPi[i].val = i.val / 5 + 5 * ((2 * (i.val % 5) + 3 * (i.val / 5)) % 5) := by decide

theorem romPi_piSrc : ∀ i : Fin 25, romPi[piSrc[i]] = i := by decide

theorem romPi_fixed : ∀ i : Fin 25, romPi[i] = i → i = 0 := by decide

/-- Settles O10: each clause is one fact about a table of 25 entries. -/
theorem rotationAndPositionTablesFollowTheirFormulas : Obligations.RotationAndPositionTablesFollowTheirFormulas :=
  ⟨rfl, fun i => ⟨romRho_lt i, romRho_eq_zero i⟩, rhoWalk_romRho, rhoWalk_nodup, rhoWalk_range, romPi_val,
    fun i => ⟨piSrc_romPi i, romPi_piSrc i⟩, romPi_fixed⟩

end Sys2Proof.Machine
end

section
/-! PROOFS. Permutation, the steps of a round and the 24 rounds (spec/40_permutation.md R60 to R66). -/

namespace Sys2Proof.Machine

section Steps
variable (A : Lanes) {x y : Nat}

/-! ### THETA (R60) -/

theorem columnParity_eq (hx : x < 5) :
    columnParity A x = A[x] ^^^ A[x + 5] ^^^ A[x + 10] ^^^ A[x + 15] ^^^ A[x + 20] := by
  simp [columnParity, laneAt, Nat.mod_eq_of_lt hx]

/-- Lane `(x, y)` after THETA; the parities are those of the lanes before. -/
theorem theta_lane (hx : x < 5) (hy : y < 5) :
    (theta A)[x + 5 * y] =
      A[x + 5 * y] ^^^ (columnParity A ((x + 4) % 5) ^^^ rotl64 (columnParity A ((x + 1) % 5)) 1) := by
  have hcol : (x + 5 * y) % 5 = x := by omega
  rw [theta_getElem, hcol, columnParity_mod, columnParity_mod, thetaEffect]

/-! ### RHO (R61) -/

theorem rho_zero_lane : (rho A)[0] = A[0] := by
  rw [rho_getElem]
  exact rotl64_zero _

/-! ### PI (R62) -/

theorem piStep_romPi (i : Fin 25) : (piStep A)[romPi[i]] = A[i] := by
  rw [Fin.getElem_fin, piStep_getElem]
  exact congrArg (A[·]) (piSrc_romPi i)

/-- The formula for `ROM_PI` by column and row. -/
theorem romPi_lane (hx : x < 5) (hy : y < 5) :
    (romPi[x + 5 * y]).val = y + 5 * ((2 * x + 3 * y) % 5) := by
  have hcol : (x + 5 * y) % 5 = x := by omega
  have hrow : (x + 5 * y) / 5 = y := by omega
  have hval := romPi_val ⟨x + 5 * y, by omega⟩
  rwa [hcol, hrow] at hval

/-! ### CHI (R63) -/

/-- The lane `n` columns on from `(x, y)` in the same row. -/
theorem laneAt_row (n : Nat) (hy : y < 5) : laneAt A (x + 5 * y + n) y = A[(x + n) % 5 + 5 * y] := by
  have hidx : (x + 5 * y + n) % 5 + 5 * (y % 5) = (x + n) % 5 + 5 * y := by omega
  simp only [laneAt, hidx]

theorem chi_lane (hx : x < 5) (hy : y < 5) :
    (chi A)[x + 5 * y] = A[x + 5 * y] ^^^ (~~~A[(x + 1) % 5 + 5 * y] &&& A[(x + 2) % 5 + 5 * y]) := by
  have hrow : (x + 5 * y) / 5 = y := by omega
  rw [chi_getElem, hrow, laneAt_row A 1 hy, laneAt_row A 2 hy]

/-! ### IOTA (R64) -/

theorem iota_zero_lane {ir : Nat} (h : ir < 24) : (iota A ir)[0] = A[0] ^^^ romRc[ir] := by
  simp [iota_getElem, h]

theorem iota_other_lane (ir : Nat) {i : Nat} (hi : i < 25) (hpos : 0 < i) : (iota A ir)[i] = A[i] := by
  rw [iota_getElem, if_neg hpos.ne']

end Steps

/-- Settles O12: `C` is the column parity. -/
theorem thetaMixesTwoColumnParities : Obligations.ThetaMixesTwoColumnParities := by
  intro A C hC x y hx hy
  have hparity (c : Nat) (hc : c < 5) : C c = columnParity A c := (hC c hc).trans (columnParity_eq A hc).symm
  rw [theta_lane A hx hy, hparity _ (Nat.mod_lt _ (by decide)), hparity _ (Nat.mod_lt _ (by decide))]

/-- Settles O13: lane by lane, the bits by `rotl64_getLsbD_add_mod`. -/
theorem rhoRotatesEachLane : Obligations.RhoRotatesEachLane := by
  refine ⟨fun A i h => ?_, rho_zero_lane⟩
  have hoffset : romRho[i] < 64 := romRho_lt ⟨i, h⟩
  refine ⟨hoffset, rho_getElem A i h, fun k hk => ?_⟩
  rw [rho_getElem, rotl64_getLsbD_add_mod _ hoffset hk]

/-- Settles O14: `PI_SRC` undoes `ROM_PI`, which is the position of the first form. -/
theorem piMovesEachLane : Obligations.PiMovesEachLane := by
  refine ⟨fun A x y hx hy => ?_, piStep_romPi⟩
  have hmove := piStep_romPi A ⟨x + 5 * y, by omega⟩
  simpa only [Fin.getElem_fin, romPi_lane hx hy] using hmove

/-- Settles O15: lane by lane. -/
theorem chiCombinesARow : Obligations.ChiCombinesARow := fun A _ _ => chi_lane A

/-- Settles O16: lane 0, then the others. -/
theorem iotaChangesLaneZeroOnly : Obligations.IotaChangesLaneZeroOnly :=
  fun A ir h => ⟨iota_zero_lane A h, fun _ hi hpos => iota_other_lane A ir hi hpos⟩

/-! ### a round from zero lanes (R65) -/

theorem zeroLanes_getElem {i : Nat} (h : i < 25) : zeroLanes[i] = 0#64 := by simp [zeroLanes]

theorem laneAt_zeroLanes (x y : Nat) : laneAt zeroLanes x y = 0#64 := zeroLanes_getElem _

theorem rotl64_of_zero (n : Nat) : rotl64 0#64 n = 0#64 := by simp [rotl64]

theorem thetaEffect_zeroLanes (x : Nat) : thetaEffect zeroLanes x = 0#64 := by
  simp [thetaEffect, columnParity, laneAt_zeroLanes, rotl64_of_zero]

theorem theta_zeroLanes : theta zeroLanes = zeroLanes := by
  ext1 i hi
  simp [theta_getElem, thetaEffect_zeroLanes]

theorem rho_zeroLanes : rho zeroLanes = zeroLanes := by
  ext1 i hi
  simp only [rho_getElem, zeroLanes_getElem, rotl64_of_zero]

theorem piStep_zeroLanes : piStep zeroLanes = zeroLanes := by
  ext1 i hi
  simp only [piStep_getElem, Fin.getElem_fin, zeroLanes_getElem]

theorem chi_zeroLanes : chi zeroLanes = zeroLanes := by
  ext1 i hi
  simp [chi_getElem, laneAt_zeroLanes]

theorem keccakRound_zeroLanes (ir : Nat) : keccakRound zeroLanes ir = iota zeroLanes ir := by
  rw [keccakRound, theta_zeroLanes, rho_zeroLanes, piStep_zeroLanes, chi_zeroLanes]

/-- Settles O17: the four first steps fix the zero lanes. -/
theorem roundFromZeroIsTheConstant : Obligations.RoundFromZeroIsTheConstant := by
  refine ⟨fun _ _ => rfl, fun ir h => ?_⟩
  have hzero : Vector.replicate 25 0 = zeroLanes := rfl
  rw [hzero, keccakRound_zeroLanes]
  refine ⟨?_, fun i hi hpos => ?_⟩
  · rw [iota_zero_lane _ h, zeroLanes_getElem, BitVec.zero_xor]
  · exact (iota_other_lane _ _ hi hpos).trans (zeroLanes_getElem hi)

/-! ### PERMUTE (R66) -/

theorem rounds_eq_foldl (ir n : Nat) (A : Lanes) : rounds ir n A = (List.range' ir n).foldl keccakRound A := by
  induction n generalizing ir A with
  | zero => rfl
  | succ n ih => rw [rounds_succ, ih, List.range'_succ, List.foldl_cons]

theorem keccakRound_injective (ir : Nat) : Function.Injective (keccakRound · ir) := fun _ _ h =>
  theta_injective (rho_injective (piStep_injective (chi_injective (iota_injective ir h))))

theorem rounds_injective (ir n : Nat) : Function.Injective (rounds ir n) := by
  induction n generalizing ir with
  | zero => exact Function.injective_id
  | succ n ih => exact (ih (ir + 1)).comp (keccakRound_injective ir)

theorem permute_injective : Function.Injective permute := fun A B h => by
  rw [permute_eq_rounds, permute_eq_rounds] at h
  exact rounds_injective 0 Config.nRounds h

theorem finite_lanes : Finite Lanes :=
  Finite.of_injective (fun A (i : Fin 25) => A[i].toFin) fun _ _ h =>
    Vector.ext fun i hi => BitVec.toFin_inj.1 (congrFun h ⟨i, hi⟩)

theorem permute_bijective : Function.Bijective permute :=
  have := finite_lanes
  Finite.injective_iff_bijective.1 permute_injective

/-- The lanes 0, 1 and 24 R66 prints, by running the 24 rounds. -/
theorem permute_zeroLanes_lanes : [0, 1, 24].map (fun i : Fin 25 => (permute zeroLanes)[i]) =
    [0xF1258F7940E1DDE7, 0x84D5CCF933C0478A, 0xEAF1FF7B5CECA249] := by
  rw [permute_eq_rounds]
  decide +kernel

/-- Settles O18: every step of a round is injective, and the states are finitely many. -/
theorem permuteIsTwentyFourRoundsAndABijection : Obligations.PermuteIsTwentyFourRoundsAndABijection := by
  refine ⟨fun A => ?_, permute_bijective, ?_⟩
  · rw [permute_eq_rounds, rounds_eq_foldl, List.range_eq_range']
  · have hlanes := permute_zeroLanes_lanes
    simp only [List.map_cons, List.map_nil, List.cons.injEq, and_true] at hlanes
    exact hlanes

end Sys2Proof.Machine
end

section
/-! PROOFS. Permutation, the PERM phase (spec/40_permutation.md R67, 10_state.md R18, R20): what its edges with quiet pins do, and the
24 rounds they add up to. -/

namespace Sys2Proof.Machine

/-! ### runs of edges -/

theorem runEdges_of_edge {p : Pins} {s u : State} (h : clockEdge p s = .next u) (ps : List Pins) :
    runEdges (p :: ps) s = runEdges ps u := by
  rw [runEdges, h]

theorem runEdges_append {ps : List Pins} {s u : State} (h : runEdges ps s = .next u) (qs : List Pins) :
    runEdges (ps ++ qs) s = runEdges qs u := by
  induction ps generalizing s with
  | nil =>
    cases h
    rfl
  | cons p ps ih =>
    obtain ⟨v, hedge, hrun⟩ := runEdges_cons h
    rw [List.cons_append, runEdges_of_edge hedge, ih hrun]

section Perm
variable {s : State} {j : Job}

/-! ### an edge in PERM -/

theorem portEdge_quiet (h : s.offered = none) : portEdge Pins.quiet s = s := by
  have hport : portEdge Pins.quiet s = { s with offered := none } := by simp [portEdge, Pins.quiet, Pins.presented]
  rw [hport, ← h]

/-- The engine is in PERM for the command `j`, no word held on the port. -/
structure RunsPerm (j : Job) (s : State) : Prop where
  phase : s.phase = .perm
  job : s.job = some j
  block : j.hasBlock = true
  held : s.offered = none

/-- The state `n` rounds later, still in PERM. -/
def roundsDone (n : Nat) (s : State) : State := { s with lanes := rounds s.rnd n s.lanes, rnd := s.rnd + n }

/-- The state when PERM is left, `n` rounds later. -/
def permLeft (j : Job) (n : Nat) (s : State) : State :=
  { s with lanes := rounds s.rnd n s.lanes, phase := phaseAfterPerm j, rnd := 0, sqi := 0 }

theorem roundsDone_add (m n : Nat) : roundsDone n (roundsDone m s) = roundsDone (m + n) s := by
  simp only [roundsDone, rounds_add, Nat.add_assoc]

theorem permLeft_roundsDone (m n : Nat) : permLeft j n (roundsDone m s) = permLeft j (m + n) s := by
  simp only [permLeft, roundsDone, rounds_add]

theorem RunsPerm.roundsDone (h : RunsPerm j s) (n : Nat) : RunsPerm j (roundsDone n s) :=
  ⟨h.phase, h.job, h.block, h.held⟩

/-- With quiet pins a clock edge in PERM is the sequencer's alone. -/
theorem RunsPerm.clockEdge_quiet (h : RunsPerm j s) : clockEdge Pins.quiet s = permEdge s := by
  have hbusy : s.phase ≠ .idle := by simp [h.phase]
  rw [clockEdge_busy rfl h.held hbusy, portEdge_quiet h.held, sequencerEdge, h.phase]

theorem RunsPerm.clockEdge_before_last (h : RunsPerm j s)
    (hrnd : s.rnd + s.params.roundsPerCycle.count < Config.nRounds) :
    clockEdge Pins.quiet s = .next (Machine.roundsDone s.params.roundsPerCycle.count s) := by
  obtain ⟨t, hedge⟩ := permEdge_next h.job h.block hrnd.le
  rw [h.clockEdge_quiet, hedge]
  obtain ⟨-, -, -, ⟨-, rfl⟩ | ⟨hlast, -⟩⟩ := permEdge_cases hedge
  · rfl
  · exact absurd hlast hrnd.ne

theorem RunsPerm.clockEdge_last (h : RunsPerm j s)
    (hrnd : s.rnd + s.params.roundsPerCycle.count = Config.nRounds) :
    clockEdge Pins.quiet s = .next (permLeft j s.params.roundsPerCycle.count s) := by
  obtain ⟨t, hedge⟩ := permEdge_next h.job h.block hrnd.le
  rw [h.clockEdge_quiet, hedge]
  obtain ⟨i, hjob, -, ⟨hbefore, -⟩ | ⟨-, rfl⟩⟩ := permEdge_cases hedge
  · exact absurd hrnd hbefore.ne
  · cases h.job.symm.trans hjob
    rfl

/-! ### edges in PERM -/

/-- `k` edges, the last round not among theirs. -/
theorem RunsPerm.runEdges_before_last (h : RunsPerm j s) (k : Nat)
    (hrnd : s.rnd + k * s.params.roundsPerCycle.count < Config.nRounds) :
    runEdges (List.replicate k Pins.quiet) s = .next (Machine.roundsDone (k * s.params.roundsPerCycle.count) s) := by
  induction k with
  | zero =>
    rw [Nat.zero_mul]
    rfl
  | succ k ih =>
    rw [Nat.succ_mul, ← Nat.add_assoc] at hrnd
    rw [Nat.succ_mul, List.replicate_succ', runEdges_append (ih (Nat.lt_of_add_right_lt hrnd)),
      runEdges_of_edge ((h.roundsDone _).clockEdge_before_last hrnd), ← roundsDone_add]
    rfl

/-- The edges up to the last round. -/
theorem RunsPerm.runEdges_last (h : RunsPerm j s) (k : Nat)
    (hrnd : s.rnd + (k + 1) * s.params.roundsPerCycle.count = Config.nRounds) :
    runEdges (List.replicate (k + 1) Pins.quiet) s = .next (permLeft j ((k + 1) * s.params.roundsPerCycle.count) s) := by
  have hpos := roundsPerCycle_pos s.params.roundsPerCycle
  rw [Nat.succ_mul, ← Nat.add_assoc] at hrnd
  rw [Nat.succ_mul, List.replicate_succ', runEdges_append (h.runEdges_before_last k (by omega)),
    runEdges_of_edge ((h.roundsDone _).clockEdge_last hrnd), ← permLeft_roundsDone]
  rfl

end Perm

/-- Settles O19: `ROUNDS_PER_CYCLE` divides 24, so the edges counted end at the last round, and fewer of them before it. -/
theorem permPhaseRunsThePermutation : Obligations.PermPhaseRunsThePermutation := by
  intro s j hphase hrnd hjob hblock hheld
  have hperm : RunsPerm j s := ⟨hphase, hjob, hblock, hheld⟩
  have hpos := roundsPerCycle_pos s.params.roundsPerCycle
  obtain ⟨n, hn⟩ := roundsPerCycle_dvd s.params.roundsPerCycle
  have hclocks : 24 / s.params.roundsPerCycle.count = n := Nat.div_eq_of_eq_mul_right hpos hn
  have htotal : n * s.params.roundsPerCycle.count = Config.nRounds := (Nat.mul_comm _ _).trans hn.symm
  rw [hclocks]
  constructor
  · obtain ⟨k, rfl⟩ : ∃ k, n = k + 1 := Nat.exists_eq_succ_of_ne_zero fun h => by simp [h] at htotal
    refine ⟨_, hperm.runEdges_last k (by rw [hrnd, htotal, Nat.zero_add]), ?_,
      rfl, rfl, rfl, rfl, rfl, rfl, rfl, rfl⟩
    rw [permute_eq_rounds, permLeft, hrnd, htotal]
  · intro k hk
    have hbefore : k * s.params.roundsPerCycle.count < Config.nRounds := htotal ▸ Nat.mul_lt_mul_of_pos_right hk hpos
    refine ⟨_, hperm.runEdges_before_last k (by rwa [hrnd, Nat.zero_add]), hphase, ?_⟩
    rw [roundsDone, hrnd, Nat.zero_add]
    exact ⟨rfl, hbefore⟩

end Sys2Proof.Machine
end

section
/-! PROOFS. Sponge, its internal operations (spec/41_sponge.md R70 to R72): the lane value of a block, XORBLOCK, PADBLOCK and SQUEEZE
byte by byte. -/

namespace Sys2Proof.Machine

/-! ### XORBLOCK (R31, R70) -/

/-- The set bits of a byte placed in a lane lie at its position. -/
theorem position_of_getLsbD_byteInLane {b : Byte} {t i : Nat} (h : (byteInLane b t).getLsbD i = true) : i / 8 = t := by
  simp only [byteInLane, BitVec.getLsbD_shiftLeft, BitVec.getLsbD_setWidth, Bool.and_eq_true, Bool.not_eq_true',
    decide_eq_false_iff_not] at h
  obtain ⟨⟨-, hge⟩, -, hbit⟩ := h
  have hlt := BitVec.lt_of_getLsbD hbit
  omega

/-- Bytes at two positions of a lane have no bit in common. -/
theorem byteInLane_and_byteInLane (b c : Byte) {t u : Nat} (h : t ≠ u) : byteInLane b t &&& byteInLane c u = 0#64 := by
  refine BitVec.eq_of_getLsbD_eq fun i _ => ?_
  rw [BitVec.getLsbD_and, BitVec.getLsbD_zero, Bool.eq_false_iff, ne_eq, Bool.and_eq_true]
  rintro ⟨hb, hc⟩
  exact h ((position_of_getLsbD_byteInLane hb).symm.trans (position_of_getLsbD_byteInLane hc))

/-- The sum R31 writes: with no common bit there is no carry, so each sum is the OR. -/
theorem laneOf_eq_sum (blk : List Byte) (j : Nat) :
    laneOf blk j = ((List.range 8).map fun t => byteInLane (blockByte blk (8 * j + t)) t).sum := by
  have hrange : List.range 8 = [0, 1, 2, 3, 4, 5, 6, 7] := rfl
  simp [hrange, laneOf, BitVec.add_eq_or_of_and_eq_zero, BitVec.and_or_distrib_left, byteInLane_and_byteInLane,
    BitVec.or_assoc]

/-- Byte by byte, XORBLOCK of `n` lanes changes the first `8 * n` bytes of the state. -/
theorem stByte_xorBlock (n : Nat) (blk : List Byte) (A : Lanes) {k : Nat} (hk : k < 200) :
    stByte (xorBlock n blk A) k = if k < 8 * n then stByte A k ^^^ blockByte blk k else stByte A k := by
  have hlane : k / 8 < 25 := Nat.div_lt_of_lt_mul hk
  have hbelow : k / 8 < n ↔ k < 8 * n := by omega
  rw [stByte_eq _ hlane, stByte_eq _ hlane, xorBlock_getElem]
  simp only [hbelow]
  split
  · rw [laneByte_xor, laneByte_laneOf _ _ (Nat.mod_lt k (by decide)), Nat.div_add_mod]
  · rfl

/-- Settles O21: the lanes by `xorBlock_getElem`, their bytes by `stByte_xorBlock`. -/
theorem xorBlockChangesTheRateBytesOnly : Obligations.XorBlockChangesTheRateBytesOnly := by
  intro m blk A _
  obtain ⟨-, -, hrate⟩ := rate_bounds m
  refine ⟨fun j _ => laneOf_eq_sum blk j, fun i h => xorBlock_getElem _ blk A i h, fun k hk => ?_⟩
  have hbytes := stByte_xorBlock (lanesPerBlock m) blk A hk
  rwa [hrate] at hbytes

/-! ### PADBLOCK (R71) -/

/-- A byte of a tail filled up with zeros to `r` bytes. -/
theorem zeroFilled_getElem? {tail : List Byte} {r k : Nat} (hk : k < r) :
    (tail ++ List.replicate (r - tail.length) 0)[k]? = some (if k < tail.length then tail.getD k 0 else 0) := by
  rw [List.getElem?_append]
  split
  · next hlt => simp [hlt]
  · next hge => rw [List.getElem?_replicate, if_pos (by omega)]

theorem padTail_lone80_getElem? {tail : List Byte} {r k : Nat} (hk : k < r) :
    (padTail .lone80 r tail)[k]? =
      some (if k < tail.length then tail.getD k 0 else if k = tail.length then 0x80 else 0) := by
  rw [padTail, List.getElem?_set, zeroFilled_getElem? hk]
  rcases Nat.lt_trichotomy k tail.length with hlt | rfl | hgt
  · simp [hlt, hlt.ne']
  · simpa using hk
  · simp [hgt.ne, hgt.ne', hgt.not_gt]

theorem padTail_pad10star1_getElem? {tail : List Byte} {r k : Nat} (hk : k < r) :
    (padTail .pad10star1 r tail)[k]? =
      some ((if k < tail.length then tail.getD k 0 else 0) ^^^ (if k = tail.length then 0x01 else 0) ^^^
        (if k = r - 1 then 0x80 else 0)) := by
  rw [padTail, List.getElem?_modify, List.getElem?_modify, zeroFilled_getElem? hk]
  simp only [Option.map_eq_map, Option.map_some, eq_comm (a := k)]
  split <;> split <;> simp

theorem padBlock_eq {s : State} (h : s.cnt < rate s.mode) :
    padBlock s = some (padTail s.params.padRule (rate s.mode) (bufBytes s)) := if_pos h

theorem bufBytes_getD {s : State} {k : Nat} (hk : k < s.cnt) : (bufBytes s).getD k 0 = bufRead s k := by
  simp [bufBytes, hk]

/-- Settles O22: the padded tail under each rule. -/
theorem padBlockFitsInOneBlock : Obligations.PadBlockFitsInOneBlock := by
  intro s hcnt
  refine ⟨_, padBlock_eq hcnt, padTail_length _ _ _ (by simpa using hcnt.le), fun k hk => ?_⟩
  have htail (z : Byte) : (if k < s.cnt then (bufBytes s).getD k 0 else z) = if k < s.cnt then bufRead s k else z :=
    if_ctx_congr Iff.rfl bufBytes_getD fun _ => rfl
  cases s.params.padRule with
  | lone80 => rw [padTail_lone80_getElem? hk, bufBytes_length, htail]; rfl
  | pad10star1 => rw [padTail_pad10star1_getElem? hk, bufBytes_length, htail]; rfl

/-! ### SQUEEZE (R72) -/

/-- The words of SQUEEZE. -/
theorem squeeze_words (A : Lanes) (size : Nat) :
    (squeeze A size).map Rsp.word = (stRead A 0 size).map fun b => 0x2000#16 ||| b.setWidth 16 := by
  rw [squeeze, List.map_map]
  exact List.map_congr_left fun b _ => word_data b

/-- Byte `j` of a lane is its lowest byte after a shift right by `8 * j`. -/
theorem laneByte_eq_setWidth (v : Lane) (j : Nat) : laneByte v j = (v >>> (8 * j)).setWidth 8 :=
  BitVec.setWidth_ushiftRight_eq_extractLsb.symm

/-- A read of the first bytes of the state reads only the lanes that hold them. -/
theorem stRead_congr {A B : Lanes} {n size : Nat} (hsize : size ≤ 8 * n) (h : ∀ i, i < n → A[i]? = B[i]?) :
    stRead A 0 size = stRead B 0 size := by
  refine List.map_congr_left fun k hk => ?_
  have hlane : (0 + k) / 8 < n := by
    have := List.mem_range.1 hk
    omega
  rw [stByte, stByte, h _ hlane]

/-- Settles O23: a digest has at most 64 bytes, which lanes 0 to 7 hold. -/
theorem squeezeEmitsLowLanesLittleEndian : Obligations.SqueezeEmitsLowLanesLittleEndian := by
  refine ⟨fun A size _ => ?_, fun A B m size hsize h => ?_⟩
  · rw [squeeze_words, stRead, List.map_map]
    refine List.map_congr_left fun k _ => ?_
    rw [Function.comp_apply, Nat.zero_add, stByte, laneByte_eq_setWidth]
  · have hbytes : size ≤ 8 * 8 := hsize.trans (digestSize_le m)
    rw [squeeze, squeeze, stRead_congr hbytes fun i hi => ?_]
    rw [Vector.getElem?_eq_getElem (by omega), Vector.getElem?_eq_getElem (by omega), h i hi]

end Sys2Proof.Machine
end

section
/-! PROOFS. Sponge, the commands (spec/41_sponge.md R73 to R75, R78): their next states written out, and that a
shorter digest starts a longer one. -/

namespace Sys2Proof.Machine

/-- Settles O24: an ACK after the message is cleared. -/
theorem resetClearsTheMessage : Obligations.ResetClearsTheMessage := fun s => by
  rw [exec_reset, emit, word_ack]
  rfl

/-- Settles O27: the three outcomes of ABSORB with room in BUF. -/
theorem absorbStoresOneByteOrEndsABlock : Obligations.AbsorbStoresOneByteOrEndsABlock := by
  intro data s hwf _
  refine ⟨fun hfin => exec_absorb_consumed data hfin,
    fun hfin hcnt => ⟨exec_absorb_below data hfin hcnt, Memory.read_write hwf.1 s.cnt data⟩, fun hfin hcnt => ?_⟩
  have hbytes : bufBytes (pushed data s) = (List.range s.cnt).map s.buf.read ++ [data] := bufBytes_push hwf.1 data
  rw [exec_absorb_boundary data hfin hcnt, ← hbytes]
  rfl

/-- The words a FINAL that passes its checks appends to RQ: the digest bytes, then DONE. -/
theorem done_finalized_rq (size : Byte) (s : State) : (emit (.done size) (finalized size s)).rq =
    s.rq ++ (stRead (finalized size s).lanes 0 size.toNat).map (fun b => 0x2000#16 ||| b.setWidth 16) ++
      [0x3000#16 ||| size.setWidth 16] := by
  rw [emit_rq, finalized_rq, squeeze_words, word_done]
  rfl

/-- Settles O28: the three outcomes of FINAL. -/
theorem finalPadsPermutesAndSqueezes : Obligations.FinalPadsPermutesAndSqueezes := by
  intro size s hcnt
  refine ⟨fun hsize => exec_final_invalid hsize, fun hsize hfin => exec_final_consumed hsize hfin, fun hsize hfin =>
    ⟨(finalized size s).lanes, rfl, (exec_final_ok hsize hfin hcnt).trans (congrArg _ ?_)⟩⟩
  have hrq := done_finalized_rq size s
  simp only [stRead, List.map_map, Nat.zero_add] at hrq
  exact congrArg (fun q => { emit (.done size) (finalized size s) with rq := q }) hrq

theorem stRead_take (A : Lanes) (a : Nat) {m n : Nat} (h : m ≤ n) : (stRead A a n).take m = stRead A a m := by
  rw [stRead, ← List.map_take, List.take_range, Nat.min_eq_left h, stRead]

/-- Settles O57: the size is read by SQUEEZE and DONE only. -/
theorem truncatedDigestIsAPrefix : Obligations.TruncatedDigestIsAPrefix := by
  intro s t u size₁ size₂ hlt hsize₂ hfin ht hu
  have hsize₁ : size₁.toNat ≤ s.mode.digestSize := hlt.le.trans hsize₂
  cases exec_outcome hu with
  | finalInvalid _ hinvalid => omega
  | finalConsumed _ _ hconsumed => rw [hfin] at hconsumed; cases hconsumed
  | finalDigest _ _ _ hcnt =>
    cases (exec_final_ok hsize₁ hfin hcnt).symm.trans ht
    exact ⟨rfl, _, _, (stRead_take _ 0 hlt.le).symm, stRead_length _ 0 _, done_finalized_rq size₁ s,
      done_finalized_rq size₂ s⟩

end Sys2Proof.Machine
end

section
/-! PROOFS. Sponge, a message (spec/41_sponge.md R69, R76, R77): the function computed, that it does not depend on what came before,
and that queries among the commands do not disturb it. -/

namespace Sys2Proof.Machine

/-! ### the function computed -/

/-- A run that completes is its first command's step and a run that completes. -/
theorem runCommands_cons_next {i : Instr} {is : List Instr} {s t : State} (h : runCommands (i :: is) s = .next t) :
    ∃ u, exec i s = .next u ∧ runCommands is u = .next t := by
  rw [runCommands] at h
  cases hexec : exec i s with
  | next u => rw [hexec] at h; exact ⟨u, rfl, h⟩
  | fault f => rw [hexec] at h; cases h
  | refused r => rw [hexec] at h; cases h

theorem runCommands_append {is : List Instr} {s t : State} (h : runCommands is s = .next t) (js : List Instr) :
    runCommands (is ++ js) s = runCommands js t := by
  induction is generalizing s with
  | nil => cases h; rfl
  | cons i is ih =>
    obtain ⟨u, hexec, hrun⟩ := runCommands_cons_next h
    rw [List.cons_append, runCommands_cons hexec, ih hrun]

/-- What a whole message and a FINAL of size `size` leave, from `s`. -/
structure Hashed (s : State) (msg : List Byte) (size : Byte) (t : State) : Prop where
  rq : t.rq = s.rq ++ List.replicate msg.length 0x1000#16 ++
    (spongeDigest s.params.padRule s.mode msg size.toNat).map (fun b => 0x2000#16 ||| b.setWidth 16) ++
    [0x3000#16 ||| size.setWidth 16]
  lanes : t.lanes = digestLanes s.params.padRule s.mode msg
  fin : t.fin = true
  cnt : t.cnt = 0
  mode : t.mode = s.mode

/-- The block FINAL absorbs is the padded tail of the message, the lanes before it those of the complete blocks. -/
theorem Absorbed.finalized_lanes {s t : State} {msg : List Byte} {n : Nat} (h : Absorbed s msg n t)
    (hlanes : s.lanes = zeroLanes) (size : Byte) :
    (finalized size t).lanes = digestLanes s.params.padRule s.mode msg := by
  rw [Machine.finalized_lanes, h.params, h.mode, h.bytes, h.lanes, hlanes]
  rfl

theorem runCommands_message (msg : List Byte) {size : Byte} {s : State} (h : Fresh s)
    (hsize : size.toNat ≤ s.mode.digestSize) :
    ∃ t, runCommands (msg.map Instr.absorb ++ [.final size]) s = .next t ∧ Hashed s msg size t := by
  obtain ⟨u, hrun, habs⟩ := runCommands_absorb_of_fresh msg h
  have hcnt : u.cnt < rate u.mode := by
    rw [habs.cnt, habs.mode]
    exact Nat.mod_lt _ (rate_pos _)
  have hfinal := exec_final_ok (size := size) (by rwa [habs.mode]) habs.fin hcnt
  have hlanes := habs.finalized_lanes h.1 size
  refine ⟨_, (runCommands_append hrun _).trans (runCommands_cons hfinal []), ?_⟩
  exact {
    rq := by rw [done_finalized_rq, hlanes, habs.rq]; rfl
    lanes := hlanes
    fin := rfl
    cnt := rfl
    mode := habs.mode }

theorem fresh_of_reset {s t : State} (h : exec .reset s = .next t) : Fresh t ∧ t.mode = s.mode := by
  cases h
  exact ⟨⟨rfl, rfl, rfl, rfl⟩, rfl⟩

theorem fresh_of_init {m : Preset} {s t : State} (h : exec (.init m) s = .next t) : Fresh t ∧ t.mode = m := by
  cases h
  exact ⟨⟨rfl, rfl, rfl, rfl⟩, rfl⟩

/-- Settles O55: the boundary state of the message, then one FINAL. -/
theorem engineComputesTheSponge : Obligations.EngineComputesTheSponge := by
  refine ⟨fun _ _ => fresh_of_reset, fun _ _ _ => fresh_of_init, fun p m => ⟨⟨rfl, rfl, rfl, rfl⟩, rfl⟩,
    fun msg size s hfresh hsize => ?_⟩
  obtain ⟨t, hrun, hhash⟩ := runCommands_message msg hfresh hsize
  exact ⟨t, hrun, hhash.rq, hhash.lanes, hhash.fin, hhash.cnt, hhash.mode⟩

/-! ### whatever came before -/

theorem runCommands_init_message (m : Preset) (msg : List Byte) {size : Byte} (hsize : size.toNat ≤ m.digestSize)
    (s : State) :
    ∃ t, runCommands (.init m :: msg.map Instr.absorb ++ [.final size]) s = .next t ∧
      Hashed (emit .ack (clearMessage { s with mode := m })) msg size t := by
  obtain ⟨hfresh, hmode⟩ := fresh_of_init (exec_init m s)
  rw [List.cons_append, runCommands_cons (exec_init m s)]
  exact runCommands_message msg hfresh hsize

/-- Settles O58: what the message leaves reads nothing of the state before INIT but the pad rule and RQ. -/
theorem digestDependsOnTheMessageAlone : Obligations.DigestDependsOnTheMessageAlone := by
  intro m msg size s s' hsize hparams hrq
  obtain ⟨t, hrun, ht⟩ := runCommands_init_message m msg hsize s
  obtain ⟨t', hrun', ht'⟩ := runCommands_init_message m msg hsize s'
  refine ⟨t, t', hrun, hrun', ?_, ?_, ht.fin.trans ht'.fin.symm, ht.cnt.trans ht'.cnt.symm⟩
  · rw [ht.rq, ht'.rq]
    simp [hparams, hrq]
  · rw [ht.lanes, ht'.lanes]
    simp [hparams]

/-! ### queries among the commands (R77) -/

/-- A command appends the same words whatever RQ holds. -/
theorem exec_withRq {i : Instr} {s t : State} (h : exec i s = .next t) :
    ∃ ws, t.rq = s.rq ++ ws ∧ ∀ q, exec i { s with rq := q } = .next { t with rq := q ++ ws } := by
  obtain ⟨rs, hrq, hindep⟩ := exec_independent h
  obtain ⟨-, -, -, -, -, hoffered, hinbox, htaken⟩ := exec_frame h
  refine ⟨_, hrq, fun q => ?_⟩
  have hexec := hindep q t.taken t.offered t.inbox
  rwa [hoffered, hinbox, htaken] at hexec ⊢

/-- A query only adds its word to RQ. -/
theorem exec_query_eq {i : Instr} {s t : State} (h : exec i s = .next t) (hi : i = .qdsz ∨ i = .qrate) :
    ∃ r, t = emit r s := by
  rcases hi with rfl | rfl <;> cases h <;> exact ⟨_, rfl⟩

/-- The command is no query. -/
abbrev notQuery (i : Instr) : Bool := decide (i ≠ .qdsz ∧ i ≠ .qrate)

/-- The commands without the queries run alike from the state whose RQ has lost the answers of earlier queries. -/
theorem runCommands_notQuery {cmds : List Instr} {s t : State} (h : runCommands cmds s = .next t) {q : List Word}
    (hq : q.Sublist s.rq) :
    ∃ u, runCommands (cmds.filter notQuery) { s with rq := q } = .next u ∧ t = { u with rq := t.rq } ∧
      u.rq.Sublist t.rq := by
  induction cmds generalizing s q with
  | nil =>
    cases h
    exact ⟨_, rfl, rfl, hq⟩
  | cons i cmds ih =>
    obtain ⟨v, hexec, hrun⟩ := runCommands_cons_next h
    by_cases hi : i = .qdsz ∨ i = .qrate
    · obtain ⟨r, rfl⟩ := exec_query_eq hexec hi
      rw [List.filter_cons_of_neg (by simpa [or_iff_not_imp_left] using hi)]
      exact ih hrun (hq.trans (List.sublist_append_left _ _))
    · obtain ⟨ws, hrq, hany⟩ := exec_withRq hexec
      rw [List.filter_cons_of_pos (by simpa using hi), runCommands_cons (hany q)]
      exact ih hrun (hrq ▸ hq.append_right ws)

/-- Settles O56: nothing lost from RQ yet at the start. -/
theorem queriesDoNotDisturbTheMessage : Obligations.QueriesDoNotDisturbTheMessage :=
  fun _ s _ h => runCommands_notQuery h (List.Sublist.refl s.rq)

end Sys2Proof.Machine
end

section
/-! PROOFS. Presets and accessors (spec/42_presets_accessors.md R80 to R83): the columns of the preset table, what INIT writes, and
the words QDSZ and QRATE answer. -/

namespace Sys2Proof.Machine

/-! ### sizes by preset (R80) -/

/-- The rate leaves the capacity: no digest is so long that `200 - 2*d` is cut off at 0. -/
theorem capacity_eq_two_mul_digestSize (m : Preset) : capacity m = 2 * m.digestSize := by
  have hd : 2 * m.digestSize ≤ 200 := by have := digestSize_le m; omega
  exact Nat.sub_sub_self hd

theorem rate_mod_eight (m : Preset) : rate m % 8 = 0 := by
  obtain ⟨-, -, hlanes⟩ := rate_bounds m
  omega

/-- Settles O8: the formulas for every preset, then the table's columns. -/
theorem presetSizesAndRates : Obligations.PresetSizesAndRates :=
  ⟨fun m => ⟨rfl, rate_mod_eight m, rate_pos m, capacity_eq_two_mul_digestSize m, rfl, rfl⟩,
    rfl, rfl, rfl, rfl, Preset.code_ofCode⟩

/-! ### INIT (R81) -/

/-- Settles O25: an ACK after MODE is written and the message is cleared; `exec_mode` for the other commands. -/
theorem initWritesModeThenClears : Obligations.InitWritesModeThenClears := by
  refine ⟨fun m s => ?next, fun s => ?same, fun i s t h hmode => ⟨t.mode, (exec_mode h).resolve_left hmode⟩⟩
  case next =>
    rw [exec_init, emit, word_ack]
    rfl
  case same => rw [exec_init, exec_reset]

/-! ### the accessors (R82, R83) -/

theorem word_val_digestSize (m : Preset) : (Rsp.val (payload m.digestSize)).word =
    match m with | .p224 => 0x401C#16 | .p256 => 0x4020#16 | .p384 => 0x4030#16 | .p512 => 0x4040#16 := by
  cases m <;> decide

theorem word_val_rate (m : Preset) : (Rsp.val (payload (rate m))).word =
    match m with | .p224 => 0x4090#16 | .p256 => 0x4088#16 | .p384 => 0x4068#16 | .p512 => 0x4048#16 := by
  cases m <;> decide

/-- A query's next state, by the word it answers. -/
theorem next_emit_of_word {r : Rsp} {w : Word} (h : r.word = w) (s : State) :
    (Host.Outcome.next (emit r s) : Result) = .next { s with rq := s.rq ++ [w] } := by
  rw [emit, h]

/-- Settles O26: each query only adds its word to RQ. -/
theorem accessorsAnswerSizes : Obligations.AccessorsAnswerSizes := fun s =>
  ⟨(exec_qdsz s).trans (next_emit_of_word (word_val_digestSize s.mode) s),
    (exec_qrate s).trans (next_emit_of_word (word_val_rate s.mode) s)⟩

end Sys2Proof.Machine
end

section
/-! PROOFS. Exceptions (spec/60_exceptions.md R85 to R92, R99): the error a command raises, as one function of the command and the
state; that it alone makes the answer an ERR word; error entry at pin level; an idle engine. -/

namespace Sys2Proof.Machine

/-! ### the error a command raises (R86, R88, R92) -/

/-- The error a command raises, if any: ABSORB and FINAL alone can. -/
def execError (i : Instr) (s : State) : Option Cause :=
  match i with
  | .absorb _ => absorbError s
  | .final size => finalError size s
  | .reset | .init _ | .qdsz | .qrate => none

section Cause
variable {i : Instr} {w : Word} {s t : State} {c : Cause}

theorem exec_of_execError (h : execError i s = some c) : exec i s = .next (emit (.err c) s) := by
  cases i with
  | absorb data =>
    have habsorb : absorbError s = some c := h
    rw [exec, execAbsorb, habsorb]
    rfl
  | final size =>
    have hfinal : finalError size s = some c := h
    rw [exec, execFinal, hfinal]
    rfl
  | reset | init | qdsz | qrate => cases h

theorem startCommand_of_execError (h : execError i s = some c) : startCommand i s = startReply (.err c) s := by
  cases i with
  | absorb data =>
    have habsorb : absorbError s = some c := h
    rw [startCommand, startAbsorb, habsorb]
  | final size =>
    have hfinal : finalError size s = some c := h
    rw [startCommand, startFinal, hfinal]
  | reset | init | qdsz | qrate => cases h

/-- Only an error is answered by an ERR word: a command that raises none ends with an ACK, DONE or VAL. -/
theorem execError_of_last_err (h : exec i s = .next t) (hlast : t.rq.getLast? = some (Rsp.err c).word) :
    execError i s = some c := by
  cases hnone : execError i s with
  | some c' =>
    cases (exec_of_execError hnone).symm.trans h
    have hcause : c' = c := by simpa using hlast
    rw [hcause]
  | none =>
    cases exec_outcome h with
    | absorbConsumed data hfin => simp [execError, absorbError, hfin] at hnone
    | finalInvalid size hsize => cases (finalError_invalid hsize).symm.trans hnone
    | finalConsumed size hsize hfin => cases (finalError_consumed hsize hfin).symm.trans hnone
    | _ => simp at hlast

/-- The answer is an ERR word and nothing else changes, exactly when the command raises that error. -/
theorem exec_eq_err_iff : exec i s = .next (emit (.err c) s) ↔ execError i s = some c :=
  ⟨fun h => execError_of_last_err h (by simp), exec_of_execError⟩

theorem finalError_eq_invalidArgument_iff {size : Byte} :
    finalError size s = some .invalidArgument ↔ s.mode.digestSize < size.toNat := by
  refine ⟨fun h => ?_, finalError_invalid⟩
  rcases final_outcomes size s with hsize | ⟨hsize, hfin⟩ | ⟨hsize, hfin⟩
  · exact hsize
  · cases (finalError_consumed hsize hfin).symm.trans h
  · cases (finalError_none hsize hfin).symm.trans h

/-- Consumed is raised with FIN = 1 only, by ABSORB and FINAL only (R88). -/
theorem execError_consumed (h : execError i s = some .consumed) :
    s.fin = true ∧ ((∃ data, i = .absorb data) ∨ ∃ size, i = .final size) := by
  cases i with
  | absorb data => exact ⟨by simpa [execError, absorbError] using h, .inl ⟨data, rfl⟩⟩
  | final size =>
    refine ⟨?_, .inr ⟨size, rfl⟩⟩
    rcases final_outcomes size s with hsize | ⟨-, hfin⟩ | ⟨hsize, hfin⟩
    · cases (finalError_invalid hsize).symm.trans h
    · exact hfin
    · cases (finalError_none hsize hfin).symm.trans h
  | reset | init | qdsz | qrate => cases h

/-- A command that answers Consumed, whatever else it changes. -/
theorem consumed_of_rq (h : exec i s = .next t) (hrq : t.rq = s.rq ++ [0xF003#16]) :
    s.fin = true ∧ ((∃ data, i = .absorb data) ∨ ∃ size, i = .final size) := by
  have hword : 0xF003#16 = (Rsp.err .consumed).word := (word_err .consumed).symm
  exact execError_consumed (execError_of_last_err h (by simp [hrq, hword]))

/-! ### the error a word raises -/

theorem wordError_ok (h : decode w = .ok i) (s : State) : wordError w s = execError i s := by
  cases i with
  | final size => exact wordError_final h s
  | _ =>
    rw [wordError, h]
    rfl

theorem wordError_error {e : DecodeError} (h : decode w = .error e) (s : State) :
    wordError w s = some .illegalCommand := by
  rw [wordError, h]

theorem sendWord_of_wordError (h : wordError w s = some c) : sendWord w s = .next (emit (.err c) s) := by
  cases hdec : decode w with
  | ok i => exact (sendWord_ok hdec s).trans (exec_of_execError ((wordError_ok hdec s).symm.trans h))
  | error e =>
    cases (wordError_error hdec s).symm.trans h
    exact sendWord_error hdec s

theorem startWord_of_wordError (h : wordError w s = some c) : startWord w s = startReply (.err c) s := by
  cases hdec : decode w with
  | ok i =>
    rw [startWord, hdec]
    exact startCommand_of_execError ((wordError_ok hdec s).symm.trans h)
  | error e =>
    cases (wordError_error hdec s).symm.trans h
    exact startWord_error hdec s

theorem wordError_of_last_err (h : sendWord w s = .next t) (hlast : t.rq.getLast? = some (Rsp.err c).word) :
    wordError w s = some c := by
  rcases sendWord_outcome h with ⟨i, hdec, hexec⟩ | ⟨⟨e, hdec⟩, rfl⟩
  · exact (wordError_ok hdec s).trans (execError_of_last_err hexec hlast)
  · have hcause : Cause.illegalCommand = c := by simpa using hlast
    exact hcause ▸ wordError_error hdec s

/-- A word that raises no error emits no ERR word: not among the DATA words, nor as its completion. -/
theorem sendWord_no_err (h : wordError w s = none) (hcnt : s.cnt < rate s.mode) :
    ∃ (t : State) (rs : List Rsp), sendWord w s = .next t ∧ t.rq = s.rq ++ rs.map Rsp.word ∧ ∀ c, Rsp.err c ∉ rs := by
  obtain ⟨t, bytes, r, hsend, hrq, -, -⟩ := oneCompletionWordPerCommand w s hcnt
  refine ⟨t, bytes.map .data ++ [r], hsend, by simpa [Function.comp_def] using hrq, fun c hmem => ?_⟩
  have hr : .err c = r := by simpa using hmem
  have herr : wordError w s = some c := wordError_of_last_err hsend (by simp [hrq, hr])
  cases h.symm.trans herr

end Cause

/-! ### edges of an engine with nothing to do, or with a completion word to emit -/

section Edges
variable {p : Pins} {s : State}

/-- The ports change nothing when no response is taken and no word is left on the port. -/
theorem portEdge_eq_self (hready : p.rspReady = false) (hheld : s.offered = none)
    (h : s.phase = .idle ∨ p.cmdValid = false) : portEdge p s = s := by
  have hport : portEdge p s = { s with offered := none } := by
    rcases h with h | h <;> simp [portEdge, Pins.presented, hready, h]
  rw [hport, ← hheld]

/-- An idle engine holds its state (R99). -/
theorem clockEdge_idle (hphase : s.phase = .idle) (hheld : s.offered = none) (hrst : p.rst = false)
    (hvalid : p.cmdValid = false) (hready : p.rspReady = false) : clockEdge p s = .next s := by
  rw [clockEdge_run hrst (holdBroken_eq_false (.inl hheld)) (by simp [hvalid]),
    portEdge_eq_self hready hheld (.inl hphase), sequencerEdge, hphase]

/-- The edge that accepts a word and takes no response. -/
theorem clockEdge_offer (w : Word) (hphase : s.phase = .idle) (hheld : s.offered = none) :
    clockEdge (Pins.offer w) s = startWord w s := by
  rw [clockEdge_accept rfl (holdBroken_eq_false (.inl hheld)) hphase rfl, portEdge_eq_self rfl hheld (.inl hphase)]
  rfl

/-- The edge that emits the completion word, RQ having room. -/
theorem clockEdge_quiet_respond {j : Job} (hphase : s.phase = .respond) (hjob : s.job = some j)
    (hheld : s.offered = none) (hroom : s.rq.length < s.params.rspDepth) :
    clockEdge Pins.quiet s = .next (toIdle (emit j.completion (j.finish s))) := by
  rw [clockEdge_run rfl (holdBroken_eq_false (.inl hheld)) (by simp [hphase]), portEdge_quiet hheld]
  simp [sequencerEdge, respondEdge, hphase, hjob, rqFull_eq_false.2 hroom]

/-- Error entry at pin level (R90): accepted at one edge, answered at the next. -/
theorem runEdges_of_wordError {w : Word} {c : Cause} (h : wordError w s = some c) (hs : AtBoundary s)
    (hroom : s.rq.length < s.params.rspDepth) :
    runEdges [Pins.offer w, Pins.quiet] s = .next (emit (.err c) s) := by
  obtain ⟨hphase, hjob, hrnd, hsqi, hheld⟩ := hs
  have haccept : clockEdge (Pins.offer w) s = startReply (.err c) s :=
    (clockEdge_offer w hphase hheld).trans (startWord_of_wordError h)
  have hanswer := clockEdge_quiet_respond (s := { s with phase := .respond, job := some (.reply (.err c)) })
    rfl rfl hheld hroom
  have hidle : toIdle (emit (.err c) s) = emit (.err c) s := toIdle_eq_self hphase hjob hrnd hsqi
  rw [runEdges_of_edge haccept, runEdges_of_edge hanswer, runEdges]
  exact congrArg _ hidle

end Edges

/-! ### the statements -/

/-- Settles O29: the answer is that of an error, and of FINAL's errors InvalidArgument is the one of its size. -/
theorem invalidArgumentExactlyAboveDigestSize : Obligations.InvalidArgumentExactlyAboveDigestSize :=
  fun size s => (exec_eq_err_iff (i := .final size) (s := s)).trans finalError_eq_invalidArgument_iff

/-- Settles O30: ABSORB and FINAL by their outcomes; a command that answers Consumed is one of the two, with FIN = 1. -/
theorem consumedUntilResetOrInit : Obligations.ConsumedUntilResetOrInit := by
  refine ⟨fun s data hfin => exec_absorb_consumed data hfin, fun s size hfin hsize => exec_final_consumed hsize hfin,
    fun i s t h hfin hrq => ?notFin, fun m s t h hrq => ?others⟩
  case notFin =>
    obtain ⟨hset, -⟩ := consumed_of_rq h hrq
    cases hfin.symm.trans hset
  case others =>
    rcases h with h | h | h | h
    all_goals obtain ⟨-, ⟨_, ⟨⟩⟩ | ⟨_, ⟨⟩⟩⟩ := consumed_of_rq h hrq

/-- Settles O31: `wordError` names the one ERR word of a word sent or accepted, and no word answers another. -/
theorem errorEntryChangesNothing : Obligations.ErrorEntryChangesNothing :=
  ⟨fun _ s c h => (sendWord_of_wordError h).trans (next_emit_of_word (word_err c) s),
    fun _ s c h hs hroom => (runEdges_of_wordError h hs hroom).trans (next_emit_of_word (word_err c) s),
    fun _ _ => sendWord_no_err⟩

/-- Settles O32: an error changes RQ alone, which neither the check of an error nor a command reads. -/
theorem failingCommandFailsAgain : Obligations.FailingCommandFailsAgain := by
  refine ⟨fun w s t c herr h => ?again, fun bad size s t u hbad ht hu => ?corrected⟩
  case again =>
    cases (sendWord_of_wordError herr).symm.trans h
    exact herr
  case corrected =>
    cases (exec_final_invalid hbad).symm.trans ht
    obtain ⟨ws, hrq, hany⟩ := exec_withRq hu
    rw [hrq, List.drop_left]
    exact hany (s.rq ++ [0xF001#16])

/-- Settles O33: each of the commands by its outcome, ABSORB by whether its byte fills the block. -/
theorem commandsThatNeverFail : Obligations.CommandsThatNeverFail := by
  rintro i s (rfl | ⟨m, rfl⟩ | rfl | rfl | ⟨⟨data, rfl⟩, hfin, hcnt⟩)
  · exact ⟨_, .ack, exec_reset s, rfl, rfl, nofun⟩
  · exact ⟨_, .ack, exec_init m s, rfl, rfl, nofun⟩
  · exact ⟨_, .val _, exec_qdsz s, rfl, rfl, nofun⟩
  · exact ⟨_, .val _, exec_qrate s, rfl, rfl, nofun⟩
  · rcases Nat.lt_or_eq_of_le (Nat.succ_le_of_lt hcnt) with hlt | heq
    · exact ⟨_, .ack, exec_absorb_below data hfin hlt, rfl, rfl, nofun⟩
    · exact ⟨_, .ack, exec_absorb_boundary data hfin heq, rfl, rfl, nofun⟩

/-- Settles O39: without a host move a step is the edge with quiet pins. -/
theorem idleEngineHoldsItsState : Obligations.IdleEngineHoldsItsState := by
  intro s p hphase hheld
  refine ⟨fun hin => ?_, clockEdge_idle hphase hheld⟩
  rw [step, hin]
  exact clockEdge_idle hphase hheld rfl rfl rfl

end Sys2Proof.Machine
end

section
/-! PROOFS. Reset and hazards (spec/70_reset_and_hazards.md R100, R101, R104, R107, R110): hardware reset from any state, the one
refusal, the stall on a full RQ, and the clocks a command takes when the host takes every response. -/

namespace Sys2Proof.Machine

/-! ### hardware reset (R100, R101) -/

/-- Settles O40: every register is a field of `hardwareReset`. -/
theorem hardwareResetFromAnyState : Obligations.HardwareResetFromAnyState := by
  intro s p hrst
  refine ⟨⟨_, clockEdge_rst hrst s, rfl, rfl, rfl, rfl, rfl, rfl, rfl, rfl, rfl, rfl, rfl, rfl, rfl⟩,
    by simp [cmdReady, hrst], by simp [rspValid, hrst], fun m rest hin => ?_⟩
  rw [step, hin]
  rfl

/-! ### no meaning is refused, so a refusal is that of a broken hold (R107) -/

section Refused
variable (s : State) (r : Refusal)

theorem startAbsorb_ne_refused (data : Byte) : startAbsorb data s ≠ .refused r := by
  unfold startAbsorb
  split
  · nofun
  · split
    · nofun
    · split <;> nofun

theorem startFinal_ne_refused (size : Byte) : startFinal size s ≠ .refused r := by
  unfold startFinal
  split
  · nofun
  · split <;> nofun

theorem startWord_ne_refused (w : Word) : startWord w s ≠ .refused r := by
  unfold startWord
  split
  case h_1 i _ =>
    cases i with
    | absorb data => exact startAbsorb_ne_refused s r data
    | final size => exact startFinal_ne_refused s r size
    | reset | init | qdsz | qrate => nofun
  case h_2 => nofun

theorem xorbEdge_ne_refused : xorbEdge s ≠ .refused r := by
  unfold xorbEdge
  split
  · split <;> nofun
  · split <;> nofun
  · nofun
  · nofun

theorem permEdge_ne_refused : permEdge s ≠ .refused r := by
  unfold permEdge
  dsimp only
  split
  · nofun
  · nofun
  · split
    · nofun
    · split <;> nofun

theorem sqzEdge_ne_refused : sqzEdge s ≠ .refused r := by
  unfold sqzEdge
  split
  · split <;> nofun
  all_goals nofun

theorem respondEdge_ne_refused : respondEdge s ≠ .refused r := by
  unfold respondEdge
  split <;> nofun

theorem sequencerEdge_ne_refused : sequencerEdge s ≠ .refused r := by
  unfold sequencerEdge
  split
  · nofun
  · exact xorbEdge_ne_refused s r
  · exact permEdge_ne_refused s r
  · exact sqzEdge_ne_refused s r
  · exact respondEdge_ne_refused s r

end Refused

theorem clockEdge_refused_iff {p : Pins} {s : State} {r : Refusal} :
    clockEdge p s = .refused r ↔ r = .handshakeBroken ∧ p.rst = false ∧ holdBroken p s = true := by
  constructor
  · intro h
    unfold clockEdge at h
    split at h
    case isTrue => cases h
    case isFalse hrst =>
      split at h
      case isTrue hb =>
        cases h
        exact ⟨rfl, by simpa using hrst, hb⟩
      case isFalse =>
        split at h
        · exact absurd h (startWord_ne_refused _ r p.cmd)
        · exact absurd h (sequencerEdge_ne_refused _ r)
  · rintro ⟨rfl, hrst, hb⟩
    exact clockEdge_broken hrst hb

/-- Settles O53: only `holdBroken` is refused. -/
theorem onlyABrokenHandshakeIsRefused : Obligations.OnlyABrokenHandshakeIsRefused := by
  intro p s r
  rw [clockEdge_refused_iff, holdBroken_iff]
  simp only [not_and_or, Bool.not_eq_true, ne_eq]

/-! ### a full response queue (R104) -/

/-- With a word to emit and no room for it the sequencer stands still. -/
theorem sequencerEdge_full {s : State} (hs : PhaseInv s) (hphase : s.phase = .sqz ∨ s.phase = .respond)
    (hfull : rqFull s = true) : sequencerEdge s = .next s := by
  obtain ⟨t, h⟩ := sequencerEdge_next hs
  rw [h]
  cases sequencerEdge_outcome h with
  | hold => rfl
  | digestByte _ _ _ _ _ hroom | complete _ _ _ hroom => cases hroom.symm.trans hfull
  | xorb _ hbusy | permRounds _ hbusy | permEnd _ hbusy => simp [hbusy] at hphase

/-- Settles O50: the ports take nothing, and the sequencer stands still. -/
theorem fullQueueStallsTheEngine : Obligations.FullQueueStallsTheEngine := by
  rintro p s ⟨-, hinv, -, -⟩ hphase hdepth hrst hready hheld
  have hbusy : s.phase ≠ .idle := by rcases hphase with h | h <;> simp [h]
  have hport : portEdge p s = { s with offered := p.presented } := by simp [portEdge, hready, hbusy]
  refine ⟨?_, by simp [cmdReady, hbusy]⟩
  rw [clockEdge_run hrst (holdBroken_eq_false (hheld.imp_right Eq.symm)) fun hacc => hbusy hacc.1, hport,
    sequencerEdge_holding, sequencerEdge_full hinv hphase (decide_eq_true hdepth), holding]

/-! ### the clocks left to the command in progress (R110) -/

/-- The edges until the permutation in progress is done: XORB and the rounds, `ROUNDS_PER_CYCLE` an edge. -/
def permClocksLeft (s : State) : Nat :=
  match s.phase with
  | .xorb => 1 + permClocks s.params
  | .perm => (Config.nRounds - s.rnd) / s.params.roundsPerCycle.count
  | .idle | .sqz | .respond => 0

/-- The edges until the engine is in IDLE if RQ never stalls it: those of the permutation, one for each DATA response to come, one
for the completion word. -/
def clocksLeft (s : State) : Nat :=
  match s.phase with
  | .idle => 0
  | .xorb | .perm | .sqz | .respond => permClocksLeft s + (dataToCome s s.lanes).length + 1

section Clocks
variable {s t : State}

theorem clocksLeft_eq_zero_iff : clocksLeft s = 0 ↔ s.phase = .idle := by
  unfold clocksLeft
  split <;> simp_all

theorem clocksLeft_busy (h : s.phase ≠ .idle) :
    clocksLeft s = permClocksLeft s + (dataToCome s s.lanes).length + 1 := by
  unfold clocksLeft
  split
  case h_1 hidle => exact absurd hidle h
  all_goals rfl

theorem permClocksLeft_xorb (h : s.phase = .xorb) : permClocksLeft s = 1 + permClocks s.params := by
  rw [permClocksLeft, h]

theorem permClocksLeft_perm (h : s.phase = .perm) :
    permClocksLeft s = (Config.nRounds - s.rnd) / s.params.roundsPerCycle.count := by rw [permClocksLeft, h]

theorem permClocksLeft_permuted (h : s.phase = .sqz ∨ s.phase = .respond) : permClocksLeft s = 0 := by
  rcases h with h | h <;> rw [permClocksLeft, h]

theorem clocksLeft_respond (h : s.phase = .respond) : clocksLeft s = 1 := by
  rw [clocksLeft_busy (by simp [h]), permClocksLeft_permuted (.inr h), dataToCome_respond _ h]
  rfl

theorem clocksLeft_sqz (h : s.phase = .sqz) : clocksLeft s = (dataToCome s s.lanes).length + 1 := by
  rw [clocksLeft_busy (by simp [h]), permClocksLeft_permuted (.inl h), Nat.zero_add]

/-- How many DATA responses are to come does not depend on the lanes they come from. -/
theorem dataToCome_length_congr (A B : Lanes) : (dataToCome s A).length = (dataToCome s B).length := by
  unfold dataToCome
  split
  · split <;> simp [squeeze]
  all_goals rfl

/-- An edge before the last of a permutation: one clock less, and as many DATA responses to come. -/
theorem clocksLeft_succ (hs : s.phase ≠ .idle) (ht : t.phase ≠ .idle) (hperm : permClocksLeft s = permClocksLeft t + 1)
    (hdata : dataToCome t t.lanes = dataToCome s t.lanes) : clocksLeft s = clocksLeft t + 1 := by
  rw [clocksLeft_busy hs, clocksLeft_busy ht, hperm, hdata, dataToCome_length_congr s.lanes t.lanes]
  omega

/-- An edge of PERM takes its rounds off the rounds left. -/
theorem roundClocks_succ {k n : Nat} (hk : 0 < k) (h : n + k ≤ Config.nRounds) :
    (Config.nRounds - n) / k = (Config.nRounds - (n + k)) / k + 1 := by
  rw [Nat.div_eq_sub_div hk (Nat.le_sub_of_add_le' h), Nat.sub_sub]

/-- With room in RQ every edge of a busy sequencer is one clock less to go. -/
theorem sequencerEdge_clocksLeft (h : sequencerEdge s = .next t) (hbusy : s.phase ≠ .idle) (hroom : rqFull s = false) :
    clocksLeft s = clocksLeft t + 1 := by
  have hpos := roundsPerCycle_pos s.params.roundsPerCycle
  cases sequencerEdge_outcome h with
  | hold hold =>
    rcases hold with hidle | ⟨-, hfull⟩
    · exact absurd hidle hbusy
    · cases hroom.symm.trans hfull
  | xorb j hphase hjob =>
    refine clocksLeft_succ hbusy (by simp) ?_ (dataToCome_enterPerm hjob hphase _ _)
    rw [permClocksLeft_xorb hphase, permClocksLeft_perm rfl, Nat.add_comm]
    rfl
  | permRounds j hphase hjob hblock hrnd =>
    refine clocksLeft_succ hbusy hbusy ?_ rfl
    rw [permClocksLeft_perm hphase, permClocksLeft_perm (by exact hphase)]
    exact roundClocks_succ hpos hrnd.le
  | permEnd j hphase hjob hblock hrnd =>
    have hleft := phaseAfterPerm_permuted j
    refine clocksLeft_succ hbusy (by rcases hleft with h | h <;> simp [h]) ?_
      (dataToCome_afterPerm _ hblock hjob (by exact hjob) hphase rfl rfl)
    rw [permClocksLeft_perm hphase, permClocksLeft_permuted hleft, roundClocks_succ hpos hrnd.le, hrnd, Nat.sub_self,
      Nat.zero_div]
  | digestByte size hphase hjob hsqi =>
    have hlen := congrArg List.length (dataToCome_squeezeOne hphase hjob hsqi)
    rw [List.length_append, Nat.add_comm] at hlen
    rw [clocksLeft_sqz hphase, hlen]
    rcases squeezeOne_phase size s with ⟨-, hrespond⟩ | ⟨hsame, -⟩
    · rw [clocksLeft_respond hrespond, dataToCome_respond _ hrespond]
      rfl
    · rw [clocksLeft_sqz (hsame.trans hphase), squeezeOne_lanes]
      rfl
  | complete j hphase => exact clocksLeft_respond hphase

/-- At the accepting edge the clocks of the table are to come. -/
theorem startCommand_clocksLeft {i : Instr} (h : startCommand i s = .next t) (hcnt : s.cnt < rate s.mode) :
    clocksLeft t = commandClocks i s := by
  cases i with
  | reset | init | qdsz | qrate =>
    cases h
    exact clocksLeft_respond rfl
  | absorb data =>
    rw [startCommand] at h
    rcases absorb_outcomes hcnt with hfin | ⟨hfin, hlt⟩ | ⟨hfin, heq⟩
    · cases (startAbsorb_consumed data hfin).symm.trans h
      rw [clocksLeft_respond rfl, commandClocks, if_neg (by simp [hfin])]
    · cases (startAbsorb_below data hfin hlt).symm.trans h
      rw [clocksLeft_respond rfl, commandClocks, if_neg (by simp [hlt.ne])]
    · cases (startAbsorb_boundary data hfin heq).symm.trans h
      rw [commandClocks, if_pos ⟨hfin, heq⟩]
      rfl
  | final size =>
    rw [startCommand] at h
    rcases final_outcomes size s with hsize | ⟨hsize, hfin⟩ | ⟨hsize, hfin⟩
    · cases (startFinal_invalid hsize).symm.trans h
      rw [clocksLeft_respond rfl, commandClocks, if_neg (by simp [hsize])]
    · cases (startFinal_consumed hsize hfin).symm.trans h
      rw [clocksLeft_respond rfl, commandClocks, if_neg (by simp [hfin])]
    · cases (startFinal_ok hsize hfin hcnt).symm.trans h
      rw [commandClocks, if_pos ⟨hfin, hsize⟩, clocksLeft_busy (by simp), dataToCome_digest rfl _ (.inl rfl)]
      simp [squeeze, sizeOperand, permClocksLeft]

end Clocks

theorem startWord_ok {w : Word} {i : Instr} (h : decode w = .ok i) (s : State) : startWord w s = startCommand i s := by
  rw [startWord, h]

/-! ### edges at which the host takes every response -/

section Held
variable {s t : State}

/-- The sequencer does not write the word held on the port. -/
theorem sequencerEdge_offered (h : sequencerEdge s = .next t) : t.offered = s.offered := by
  have hheld : sequencerEdge s = holding s.offered (sequencerEdge s) := sequencerEdge_holding s.offered s
  rw [h, holding] at hheld
  rw [Host.Outcome.next.inj hheld]

/-- Nor does an accepted word. -/
theorem startWord_offered {w : Word} (h : startWord w s = .next t) : t.offered = s.offered := by
  rcases startWord_cases h with ⟨r, u, -, rfl | ⟨m, rfl⟩ | ⟨data, rfl, -⟩, -, rfl⟩ | ⟨data, -, -, -, -, rfl⟩ |
    ⟨size, -, -, -, -, -, rfl⟩
  all_goals rfl

/-- After an edge that accepts a word, or at which none is presented, no word is held. -/
theorem clockEdge_offered {p : Pins} (hrst : p.rst = false) (hp : s.phase = .idle ∨ p.cmdValid = false)
    (h : clockEdge p s = .next t) : t.offered = none := by
  have hport : (portEdge p s).offered = none := by
    rcases hp with hp | hp <;> simp [Pins.presented, hp]
  rcases clockEdge_accepts_or_runs hrst h with ⟨-, -, ht⟩ | ⟨-, ht⟩
  · exact (startWord_offered ht).trans hport
  · exact (sequencerEdge_offered ht).trans hport

theorem clockEdge_params {p : Pins} (hrst : p.rst = false) (h : clockEdge p s = .next t) : t.params = s.params := by
  rw [← portEdge_params s p]
  rcases clockEdge_accepts_or_runs hrst h with ⟨-, -, ht⟩ | ⟨-, ht⟩
  · exact startWord_params ht
  · obtain ⟨hparams, -⟩ := sequencerEdge_mode ht
    exact hparams

@[simp] theorem clocksLeft_portEdge (p : Pins) (s : State) : clocksLeft (portEdge p s) = clocksLeft s := by
  simp only [clocksLeft, permClocksLeft, dataToCome, portEdge_phase, portEdge_params, portEdge_rnd, portEdge_sqi,
    portEdge_job, portEdge_lanes]

end Held

/-- The engine while the host takes every response: RQ within `RSP_DEPTH`, no word held on the port. -/
structure Drains (s : State) : Prop where
  inv : EngineInv s
  depth : s.rq.length ≤ s.params.rspDepth
  held : s.offered = none

section Drain
variable {s t : State}

/-- The take frees an entry, if RQ is full, for a word emitted at the same edge (log 10). -/
theorem Drains.room (h : Drains s) : rqFull (portEdge Pins.drain s) = false := by
  obtain ⟨-, -, -, hpos⟩ := h.inv
  have hdepth := h.depth
  have htail : (portEdge Pins.drain s).rq = s.rq.tail := portEdge_rq Pins.drain s
  rw [rqFull_eq_false, portEdge_params, htail, List.length_tail]
  omega

theorem Drains.edge {p : Pins} (hs : Drains s) (hrst : p.rst = false) (hp : s.phase = .idle ∨ p.cmdValid = false)
    (h : clockEdge p s = .next t) : Drains t := by
  obtain ⟨-, -, -, -, -, -, hlen⟩ := responseQueueKeepsOrder p s t hrst h
  refine ⟨clockEdge_engineInv hs.inv hrst h, ?_, clockEdge_offered hrst hp h⟩
  rw [clockEdge_params hrst h]
  exact hlen.trans (max_le hs.depth le_rfl)

/-- An edge is one clock less to go, and changes nothing the host can tell apart once the command has completed. -/
theorem Drains.drainEdge (hs : Drains s) :
    ∃ t, clockEdge Pins.drain s = .next t ∧ Drains t ∧ clocksLeft t = clocksLeft s - 1 ∧
      observe (settle t) = observe (settle s) := by
  have hedge : clockEdge Pins.drain s = sequencerEdge (portEdge Pins.drain s) :=
    clockEdge_run rfl (holdBroken_eq_false (.inl hs.held)) nofun
  obtain ⟨-, hphase, -⟩ := hs.inv.portEdge Pins.drain
  obtain ⟨t, ht⟩ := sequencerEdge_next hphase
  rw [hedge]
  refine ⟨t, ht, hs.edge rfl (.inr rfl) (hedge.trans ht), ?_, sequencerEdge_portEdge_observe ht⟩
  by_cases hidle : s.phase = .idle
  · have hport : (portEdge Pins.drain s).phase = .idle := (portEdge_phase _ _).trans hidle
    rw [sequencerEdge, hport] at ht
    cases ht
    rw [clocksLeft_portEdge, clocksLeft_eq_zero_iff.2 hidle]
  · have hclocks := sequencerEdge_clocksLeft ht (by simpa using hidle) hs.room
    rw [clocksLeft_portEdge] at hclocks
    omega

theorem Drains.runEdges (hs : Drains s) (k : Nat) :
    ∃ t, runEdges (List.replicate k Pins.drain) s = .next t ∧ Drains t ∧ clocksLeft t = clocksLeft s - k ∧
      observe (settle t) = observe (settle s) := by
  induction k generalizing s with
  | zero => exact ⟨s, rfl, hs, rfl, rfl⟩
  | succ k ih =>
    obtain ⟨u, hedge, hu, hclocks, hobs⟩ := hs.drainEdge
    obtain ⟨t, hrun, ht, hclocks', hobs'⟩ := ih hu
    refine ⟨t, (runEdges_of_edge hedge _).trans hrun, ht, ?_, hobs'.trans hobs⟩
    rw [hclocks', hclocks]
    omega

/-- A command offered at a boundary is accepted with the clocks of the table to come, and will end as the atomic command does. -/
theorem Drains.accept (hs : Drains s) (hidle : s.phase = .idle) (i : Instr) :
    ∃ t u, clockEdge (Pins.offer (encode i)) s = .next t ∧ exec i s = .next u ∧ Drains t ∧
      clocksLeft t = commandClocks i s ∧ observe (settle t) = observe u := by
  obtain ⟨-, hphase, -⟩ := hs.inv
  have hcnt : s.cnt < rate s.mode := hphase.cnt_lt_of_idle hidle
  obtain ⟨t, ht⟩ := startCommand_next i hcnt
  have hdec := decode_encode i
  have hedge : clockEdge (Pins.offer (encode i)) s = .next t := by
    rw [clockEdge_offer _ hidle hs.held, startWord_ok hdec, ht]
  obtain ⟨haccept, -⟩ := clockEdgeRefinesOneCommand _ s t hs.inv rfl hedge
  obtain ⟨u, hu, hobs⟩ := haccept ((cmdReady_iff rfl).2 hidle) rfl
  exact ⟨t, u, hedge, (sendWord_ok hdec s).symm.trans hu, hs.edge rfl (.inl hidle) hedge,
    startCommand_clocksLeft ht hcnt, hobs⟩

end Drain

/-- Settles O48: each edge after acceptance is one clock less to go, and in IDLE the command has completed. -/
theorem commandTakesTheTabledClocks : Obligations.CommandTakesTheTabledClocks := by
  rintro i s hs ⟨hidle, -, -, -, hheld⟩ hdepth
  obtain ⟨v, u, hedge, hexec, hv, hclocks, hobs⟩ := Drains.accept ⟨hs, hdepth, hheld⟩ hidle i
  constructor
  · obtain ⟨t, hrun, ht, hleft, hobs'⟩ := hv.runEdges (commandClocks i s)
    have hdone : t.phase = .idle := clocksLeft_eq_zero_iff.1 (by rw [hleft, hclocks, Nat.sub_self])
    refine ⟨t, u, (runEdges_of_edge hedge _).trans hrun, hexec, hdone, ?_⟩
    rw [← ht.inv.settle_of_idle hdone, hobs', hobs]
  · intro k hk
    obtain ⟨t, hrun, -, hleft, -⟩ := hv.runEdges k
    refine ⟨t, (runEdges_of_edge hedge _).trans hrun, fun hdone => ?_⟩
    have hzero := clocksLeft_eq_zero_iff.2 hdone
    omega

end Sys2Proof.Machine
end

section
/-! PROOFS. Hazards, message data (spec/70_reset_and_hazards.md R108): what an edge does to PHASE, the counters, MODE, FIN, the
command in progress and the length of RQ is read off these alone. -/

namespace Sys2Proof.Machine

/-- The second state differs from the first in the lanes, the bytes of BUF, the words of the queues and the host's side alone; RQ
is as long. -/
inductive SameControl (s : State) : State → Prop where
  | intro (A : Lanes) (b : Memory) (q tk : List Word) (o : Option Word) (ib : List HostMove)
      (hlen : q.length = s.rq.length) :
      SameControl s { s with lanes := A, buf := b, rq := q, taken := tk, offered := o, inbox := ib }

/-- Both results are next states that differ in message data alone. -/
def SameControlNext (x y : Result) : Prop := ∀ s, x = .next s → ∃ t, y = .next t ∧ SameControl s t

section
variable {s t : State}

theorem sameControl_of_eq (hcnt : t.cnt = s.cnt) (hmode : t.mode = s.mode) (hfin : t.fin = s.fin)
    (hphase : t.phase = s.phase) (hrnd : t.rnd = s.rnd) (hsqi : t.sqi = s.sqi) (hjob : t.job = s.job)
    (hparams : t.params = s.params) (hlen : t.rq.length = s.rq.length) : SameControl s t := by
  have ht : t = { s with
      lanes := t.lanes, buf := t.buf, rq := t.rq, taken := t.taken, offered := t.offered, inbox := t.inbox } := by
    rw [← hcnt, ← hmode, ← hfin, ← hphase, ← hrnd, ← hsqi, ← hjob, ← hparams]
  rw [ht]
  exact .intro _ _ _ _ _ _ hlen

theorem SameControl.next (h : SameControl s t) : SameControlNext (.next s) (.next t) := by
  rintro _ ⟨⟩
  exact ⟨t, rfl, h⟩

theorem SameControl.portEdge {p q : Pins} (h : SameControl s t) (hready : q.rspReady = p.rspReady) :
    SameControl (portEdge p s) (portEdge q t) := by
  cases h with
  | intro A b rq tk o ib hlen =>
    refine sameControl_of_eq ?_ ?_ ?_ ?_ ?_ ?_ ?_ ?_ ?_
    case refine_9 =>
      rw [portEdge_rq, portEdge_rq, hready]
      split <;> simp [hlen]
    all_goals simp

/-! ### an accepted word -/

/-- The sequencer leaves IDLE for the same phase with the same command in progress. -/
theorem SameControl.start (phase : Phase) (job : Option Job) (h : SameControl s t) :
    SameControl { s with phase := phase, job := job } { t with phase := phase, job := job } := by
  cases h with
  | intro _ _ _ _ _ _ hlen => exact .intro _ _ _ _ _ _ hlen

theorem startReply_sameControl (r : Rsp) (h : SameControl s t) : SameControlNext (startReply r s) (startReply r t) :=
  (h.start .respond (some (.reply r))).next

theorem startBlock_sameControl (j : Job) (h : SameControl s t) : SameControlNext (startBlock j s) (startBlock j t) :=
  (h.start .xorb (some j)).next

/-- The bytes two ABSORB words deliver may differ: BUF is data, CNT is not. -/
theorem SameControl.pushed (a b : Byte) (h : SameControl s t) : SameControl (pushed a s) (pushed b t) := by
  cases h with
  | intro _ _ _ _ _ _ hlen => exact .intro _ _ _ _ _ _ hlen

theorem SameControl.clearMessage (h : SameControl s t) : SameControl (clearMessage s) (clearMessage t) := by
  cases h with
  | intro _ _ _ _ _ _ hlen => exact .intro _ _ _ _ _ _ hlen

theorem SameControl.withMode (m : Preset) (h : SameControl s t) :
    SameControl { s with mode := m } { t with mode := m } := by
  cases h with
  | intro _ _ _ _ _ _ hlen => exact .intro _ _ _ _ _ _ hlen

/-- What the checks of ABSORB and FINAL read. -/
theorem SameControl.fill (h : SameControl s t) : t.fin = s.fin ∧ t.cnt = s.cnt ∧ t.mode = s.mode := by
  cases h with
  | intro => exact ⟨rfl, rfl, rfl⟩

theorem sameControlNext_of_fault (f : Fault) (y : Result) : SameControlNext (.fault f) y := by
  intro s h
  cases h

theorem startAbsorb_sameControl (a b : Byte) (h : SameControl s t) :
    SameControlNext (startAbsorb a s) (startAbsorb b t) := by
  obtain ⟨hfin, hcnt, hmode⟩ := h.fill
  cases hf : s.fin with
  | true =>
    rw [startAbsorb_consumed a hf, startAbsorb_consumed b (hfin.trans hf)]
    exact startReply_sameControl _ h
  | false =>
    rw [hf] at hfin
    rcases Nat.lt_trichotomy (s.cnt + 1) (rate s.mode) with hc | hc | hc
    · rw [startAbsorb_below a hf hc, startAbsorb_below b hfin (by rwa [hcnt, hmode])]
      exact startReply_sameControl _ (h.pushed a b)
    · rw [startAbsorb_boundary a hf hc, startAbsorb_boundary b hfin (by rwa [hcnt, hmode])]
      exact startBlock_sameControl _ (h.pushed a b)
    · rw [startAbsorb_overfull a hf (Nat.le_of_lt_succ hc)]
      exact sameControlNext_of_fault _ _

theorem startFinal_sameControl (size : Byte) (h : SameControl s t) :
    SameControlNext (startFinal size s) (startFinal size t) := by
  obtain ⟨hfin, hcnt, hmode⟩ := h.fill
  rcases final_outcomes size s with hsize | ⟨hsize, hf⟩ | ⟨hsize, hf⟩
  · rw [startFinal_invalid hsize, startFinal_invalid (by rwa [hmode])]
    exact startReply_sameControl _ h
  · rw [startFinal_consumed hsize hf, startFinal_consumed (by rwa [hmode]) (hfin.trans hf)]
    exact startReply_sameControl _ h
  · rcases Nat.lt_or_ge s.cnt (rate s.mode) with hc | hc
    · rw [startFinal_ok hsize hf hc, startFinal_ok (by rwa [hmode]) (hfin.trans hf) (by rwa [hcnt, hmode])]
      exact startBlock_sameControl _ h
    · rw [startFinal_overfull hsize hf hc]
      exact sameControlNext_of_fault _ _

theorem startCommand_sameControl (i : Instr) (h : SameControl s t) :
    SameControlNext (startCommand i s) (startCommand i t) := by
  obtain ⟨-, -, hmode⟩ := h.fill
  cases i with
  | reset => exact startReply_sameControl _ h.clearMessage
  | init m => exact startReply_sameControl _ (h.withMode m).clearMessage
  | absorb data => exact startAbsorb_sameControl data data h
  | final size => exact startFinal_sameControl size h
  | qdsz | qrate =>
    rw [startCommand, startCommand, hmode]
    exact startReply_sameControl _ h

/-- The same word, or two ABSORB words. -/
theorem startWord_sameControl {w v : Word} (h : SameControl s t)
    (hw : w = v ∨ ∃ a b, decode w = .ok (.absorb a) ∧ decode v = .ok (.absorb b)) :
    SameControlNext (startWord w s) (startWord v t) := by
  rcases hw with rfl | ⟨a, b, ha, hb⟩
  · cases hdec : decode w with
    | error e =>
      rw [startWord_error hdec, startWord_error hdec]
      exact startReply_sameControl _ h
    | ok i =>
      rw [startWord_ok hdec, startWord_ok hdec]
      exact startCommand_sameControl i h
  · rw [startWord_ok ha, startWord_ok hb]
    exact startAbsorb_sameControl a b h

/-! ### an edge of the sequencer -/

theorem SameControl.rqFull (h : SameControl s t) : rqFull t = rqFull s := by
  cases h with
  | intro _ _ _ _ _ _ hlen => simp only [Machine.rqFull, hlen]

theorem xorbEdge_sameControl (h : SameControl s t) : SameControlNext (xorbEdge s) (xorbEdge t) := by
  cases h with
  | intro _ _ _ _ _ _ hlen =>
    unfold xorbEdge padBlock
    dsimp only
    split
    · split
      · exact SameControl.next (.intro _ _ _ _ _ _ hlen)
      · exact sameControlNext_of_fault _ _
    · by_cases hopen : s.cnt < rate s.mode
      · simp only [if_pos hopen]
        exact SameControl.next (.intro _ _ _ _ _ _ hlen)
      · simp only [if_neg hopen]
        exact sameControlNext_of_fault _ _
    all_goals exact sameControlNext_of_fault _ _

theorem permEdge_sameControl (h : SameControl s t) : SameControlNext (permEdge s) (permEdge t) := by
  cases h with
  | intro _ _ _ _ _ _ hlen =>
    unfold permEdge
    dsimp only
    split
    · exact sameControlNext_of_fault _ _
    · exact sameControlNext_of_fault _ _
    · split
      · exact sameControlNext_of_fault _ _
      · split <;> exact SameControl.next (.intro _ _ _ _ _ _ hlen)

/-- The digest byte is data; that one is emitted is not. -/
theorem SameControl.squeezeOne (size : Byte) (h : SameControl s t) : SameControl (squeezeOne size s) (squeezeOne size t) := by
  cases h with
  | intro _ _ _ _ _ _ hlen =>
    unfold Machine.squeezeOne
    dsimp only
    split <;> exact .intro _ _ _ _ _ _ (by simp [hlen])

theorem sqzEdge_sameControl (h : SameControl s t) : SameControlNext (sqzEdge s) (sqzEdge t) := by
  have hfull := h.rqFull
  have hstall := h.next
  have hbyte := fun size => (h.squeezeOne size).next
  cases h with
  | intro _ _ _ _ _ _ hlen =>
    unfold sqzEdge
    rw [hfull]
    dsimp only
    split
    · split
      · cases rqFull s
        · exact hbyte _
        · exact hstall
      · exact sameControlNext_of_fault _ _
    all_goals exact sameControlNext_of_fault _ _

theorem SameControl.complete (j : Job) (h : SameControl s t) :
    SameControl (toIdle (Machine.emit j.completion (j.finish s))) (toIdle (Machine.emit j.completion (j.finish t))) := by
  cases h with
  | intro _ _ _ _ _ _ hlen => cases j <;> exact .intro _ _ _ _ _ _ (by simp [hlen, Job.finish])

theorem respondEdge_sameControl (h : SameControl s t) : SameControlNext (respondEdge s) (respondEdge t) := by
  have hfull := h.rqFull
  have hstall := h.next
  have hdone := fun j => (h.complete j).next
  cases h with
  | intro _ _ _ _ _ _ hlen =>
    unfold respondEdge
    rw [hfull]
    dsimp only
    split
    · cases rqFull s
      · exact hdone _
      · exact hstall
    · exact sameControlNext_of_fault _ _

theorem sequencerEdge_sameControl (h : SameControl s t) : SameControlNext (sequencerEdge s) (sequencerEdge t) := by
  have hphase : t.phase = s.phase := by cases h; rfl
  unfold sequencerEdge
  rw [hphase]
  split
  · exact h.next
  · exact xorbEdge_sameControl h
  · exact permEdge_sameControl h
  · exact sqzEdge_sameControl h
  · exact respondEdge_sameControl h

/-! ### a clock edge -/

/-- With no word held: reset, an accepted word, or an edge of the sequencer, the same at both edges. -/
theorem clockEdge_sameControl {p q : Pins} (h : SameControl s t) (hs : s.offered = none) (ht : t.offered = none)
    (hrst : p.rst = q.rst) (hcfg : p.cfgMode = q.cfgMode) (hvalid : p.cmdValid = q.cmdValid)
    (hready : p.rspReady = q.rspReady)
    (hcmd : p.cmd = q.cmd ∨ ∃ a b, decode p.cmd = .ok (.absorb a) ∧ decode q.cmd = .ok (.absorb b)) :
    SameControlNext (clockEdge p s) (clockEdge q t) := by
  have hphase : t.phase = s.phase := by cases h; rfl
  have hport := h.portEdge hready.symm
  unfold clockEdge
  rw [holdBroken_eq_false (.inl hs), holdBroken_eq_false (.inl ht), ← hrst, ← hcfg, ← hvalid, hphase]
  split
  · cases h with
    | intro => exact SameControl.next (.intro _ _ _ _ _ _ rfl)
  · rw [if_neg Bool.false_ne_true, if_neg Bool.false_ne_true]
    split
    · exact startWord_sameControl hport hcmd
    · exact sequencerEdge_sameControl hport

end

/-- Settles O52: the two states differ in message data alone, and so do the next ones. -/
theorem phasesIgnoreMessageData : Obligations.PhasesIgnoreMessageData := by
  intro p q s t s' hcnt hmode hfin hphase hrnd hsqi hlen hjob hparams hs ht hrst hcfg hvalid hready hcmd h
  have hst : SameControl s t := sameControl_of_eq hcnt.symm hmode.symm hfin.symm hphase.symm hrnd.symm hsqi.symm
    hjob.symm hparams.symm hlen.symm
  obtain ⟨t', hedge, hst'⟩ := clockEdge_sameControl hst hs ht hrst hcfg hvalid hready hcmd s' h
  refine ⟨t', hedge, ?_⟩
  cases hst' with
  | intro _ _ _ _ _ _ hlen' => exact ⟨rfl, rfl, rfl, rfl, rfl, rfl, hlen'.symm, rfl⟩

end Sys2Proof.Machine
end
